-- ==== Sys2Proof/Word.lean ====
section
/-! DEFINITION. The word types of HXR: 16-bit words, bytes, register indices and immediates (00_scope.md R4, 30_encoding.md R72). -/

namespace Sys2Proof

/-- A 16-bit value: a general register, `pc`, `sp`, an instruction word, an address (R4, R10, R15, R18). -/
abbrev Word := BitVec 16

/-- The unit of memory addressing (R4, R24). -/
abbrev Byte := BitVec 8

/-- A register index is 3 bits wide (R10). -/
abbrev RegIdx := BitVec 3

/-- The immediate of format RI, bits 15..8 (R72, R77). -/
abbrev Imm8 := BitVec 8

/-- The immediate of format J, bits 15..5 (R72, R77). -/
abbrev Imm11 := BitVec 11

/-- The value of the opcode field, bits 4..0 (R72). -/
abbrev OpNumber := BitVec 5

/-- The two sizes of a memory access (R44, R45). -/
inductive Width
  | byte
  | word
deriving DecidableEq, Repr

/-- How many bytes an access of this size moves. -/
def Width.bytes : Width → Nat
  | .byte => 1
  | .word => 2

end Sys2Proof
end

