-- ==== Sys2Proof/Config.lean ====
section
/-! DEFINITION. The parameters of an HXR core (00_scope.md R5) and the domain of `OPNUM`: the 27 opcode names with their formats (30_encoding.md R74, R80). -/

namespace Sys2Proof

/-- The 27 opcode names, in the order of the opcode map (R80). -/
inductive Op
  | mov | movi | cmp | je | jn | jg | jl | add | addi
  | sub | subi | mod | modi | and | or | xor | bsl | bsr
  | bsli | bsri | ldw | ldb | stw | stb | push | pop | halt
deriving DecidableEq, Repr

/-- The five ways the 11 bits above the opcode are used (R74). -/
inductive Format
  | rr | ri | r | j | z
deriving DecidableEq, Repr

/-- The opcode names in table order (R80). -/
def Op.all : List Op :=
  [.mov, .movi, .cmp, .je, .jn, .jg, .jl, .add, .addi,
   .sub, .subi, .mod, .modi, .and, .or, .xor, .bsl, .bsr,
   .bsli, .bsri, .ldw, .ldb, .stw, .stb, .push, .pop, .halt]

/-- The format of each instruction (R74, R80). -/
def Op.format : Op → Format
  | .mov | .cmp | .add | .sub | .mod | .and | .or => .rr
  | .xor | .bsl | .bsr | .ldw | .ldb | .stw | .stb => .rr
  | .movi | .addi | .subi | .modi | .bsli | .bsri => .ri
  | .pop => .r
  | .je | .jn | .jg | .jl | .push => .j
  | .halt => .z

/-- `OPNUM`, the number in bits 4..0 that selects each instruction (R5, R81): plain data, one number for each name. -/
structure OpNum where
  mov : OpNumber
  movi : OpNumber
  cmp : OpNumber
  je : OpNumber
  jn : OpNumber
  jg : OpNumber
  jl : OpNumber
  add : OpNumber
  addi : OpNumber
  sub : OpNumber
  subi : OpNumber
  mod : OpNumber
  modi : OpNumber
  and : OpNumber
  or : OpNumber
  xor : OpNumber
  bsl : OpNumber
  bsr : OpNumber
  bsli : OpNumber
  bsri : OpNumber
  ldw : OpNumber
  ldb : OpNumber
  stw : OpNumber
  stb : OpNumber
  push : OpNumber
  pop : OpNumber
  halt : OpNumber
deriving DecidableEq, Repr

/-- The number `OPNUM` gives an opcode name. -/
def OpNum.num (o : OpNum) : Op → OpNumber
  | .mov => o.mov
  | .movi => o.movi
  | .cmp => o.cmp
  | .je => o.je
  | .jn => o.jn
  | .jg => o.jg
  | .jl => o.jl
  | .add => o.add
  | .addi => o.addi
  | .sub => o.sub
  | .subi => o.subi
  | .mod => o.mod
  | .modi => o.modi
  | .and => o.and
  | .or => o.or
  | .xor => o.xor
  | .bsl => o.bsl
  | .bsr => o.bsr
  | .bsli => o.bsli
  | .bsri => o.bsri
  | .ldw => o.ldw
  | .ldb => o.ldb
  | .stw => o.stw
  | .stb => o.stb
  | .push => o.push
  | .pop => o.pop
  | .halt => o.halt

/-- The default numbering: 0 to 26 in table order (R81). UNVERIFIED (log 4): the source gives no opcode number. -/
def OpNum.default : OpNum where
  mov := 0
  movi := 1
  cmp := 2
  je := 3
  jn := 4
  jg := 5
  jl := 6
  add := 7
  addi := 8
  sub := 9
  subi := 10
  mod := 11
  modi := 12
  and := 13
  or := 14
  xor := 15
  bsl := 16
  bsr := 17
  bsli := 18
  bsri := 19
  ldw := 20
  ldb := 21
  stw := 22
  stb := 23
  push := 24
  pop := 25
  halt := 26

/-- The parameters a core is built with (R5). `ROM`, the fifth parameter, is the argument of reset (R280). -/
structure Config where
  /-- `MEM_SIZE`: how many bytes the memory array has. -/
  memSize : Nat
  /-- `ROM_BASE`: where the program image is placed and where `pc` starts. -/
  romBase : Nat
  /-- `HEAP_BASE`: the start of the advisory heap region; no rule reads it (log 30). -/
  heapBase : Nat
  /-- `OPNUM`. -/
  opnum : OpNum
deriving DecidableEq, Repr

/-- `T0`, the spec's own instantiation for examples (R5, 92_eei_decisions.md D25). DESIGN CHOICE (log 2) as the parameters of
`State.reset`: the spec leaves them open. -/
def Config.t0 : Config :=
  { memSize := 65536, romBase := 0x0100, heapBase := 0x0800, opnum := OpNum.default }

end Sys2Proof
end

