-- ==== Sys2Proof/Syntax.lean ====
section
/-! DEFINITION. The abstract syntax of HXR: one constructor for each row of spec/opcode_table.json (30_encoding.md R74, R80). -/

namespace Sys2Proof

/-- An instruction: its opcode name and the fields its format uses (R74). `a` is field `A`, `b` is field `B`, `imm` is `imm8` or
`imm11`. Ignored bits are no part of an instruction (R75). -/
inductive Instr
  | mov (a b : RegIdx)
  | movi (a : RegIdx) (imm : Imm8)
  | cmp (a b : RegIdx)
  | je (imm : Imm11)
  | jn (imm : Imm11)
  | jg (imm : Imm11)
  | jl (imm : Imm11)
  | add (a b : RegIdx)
  | addi (a : RegIdx) (imm : Imm8)
  | sub (a b : RegIdx)
  | subi (a : RegIdx) (imm : Imm8)
  | mod (a b : RegIdx)
  | modi (a : RegIdx) (imm : Imm8)
  | and (a b : RegIdx)
  | or (a b : RegIdx)
  | xor (a b : RegIdx)
  | bsl (a b : RegIdx)
  | bsr (a b : RegIdx)
  | bsli (a : RegIdx) (imm : Imm8)
  | bsri (a : RegIdx) (imm : Imm8)
  | ldw (a b : RegIdx)
  | ldb (a b : RegIdx)
  | stw (a b : RegIdx)
  | stb (a b : RegIdx)
  | push (imm : Imm11)
  | pop (a : RegIdx)
  | halt
deriving DecidableEq, Repr

/-- The opcode name of an instruction. -/
def Instr.op : Instr → Op
  | .mov _ _ => .mov
  | .movi _ _ => .movi
  | .cmp _ _ => .cmp
  | .je _ => .je
  | .jn _ => .jn
  | .jg _ => .jg
  | .jl _ => .jl
  | .add _ _ => .add
  | .addi _ _ => .addi
  | .sub _ _ => .sub
  | .subi _ _ => .subi
  | .mod _ _ => .mod
  | .modi _ _ => .modi
  | .and _ _ => .and
  | .or _ _ => .or
  | .xor _ _ => .xor
  | .bsl _ _ => .bsl
  | .bsr _ _ => .bsr
  | .bsli _ _ => .bsli
  | .bsri _ _ => .bsri
  | .ldw _ _ => .ldw
  | .ldb _ _ => .ldb
  | .stw _ _ => .stw
  | .stb _ _ => .stb
  | .push _ => .push
  | .pop _ => .pop
  | .halt => .halt

end Sys2Proof
end

