-- ==== Sys2Proof/WellFormed.lean ====
section
/-! DEFINITION. The checks: parameters (00_scope.md R5), the program image (70_reset_and_hazards.md R282), field values given as
numbers (30_encoding.md R73), instructions. -/

namespace Sys2Proof

/-- `OPNUM` is injective (R5). -/
def OpNum.injective (o : OpNum) : Bool :=
  Op.all.all fun k => Op.all.all fun l => o.num k != o.num l || k == l

/-- The constraints of R5 on the parameters. -/
def Config.wf (c : Config) : Bool :=
  decide (2 ≤ c.memSize) && decide (c.memSize ≤ 65536) && decide (c.romBase < c.heapBase)
    && decide (c.heapBase ≤ c.memSize) && c.opnum.injective

/-- The image fits: `ROM_BASE + length(ROM) <= MEM_SIZE` (R5, R282). -/
def Config.imageFits (c : Config) (rom : List Byte) : Bool :=
  decide (c.romBase + rom.length ≤ c.memSize)

/-- Field values as the encoder's callers give them: numbers, not yet known to fit their fields (R73). A format reads only the ones
it uses. -/
structure RawFields where
  a : Nat := 0
  b : Nat := 0
  imm8 : Nat := 0
  imm11 : Nat := 0
deriving DecidableEq, Repr

/-- Every field value fits its field: register indices 0..7, `imm8` 0..255, `imm11` 0..2047 (R73). -/
def RawFields.inRange (f : RawFields) : Bool :=
  decide (f.a < 8) && decide (f.b < 8) && decide (f.imm8 < 256) && decide (f.imm11 < 2048)

/-- The field values of an instruction. -/
def Instr.fields : Instr → RawFields
  | .mov a b => { a := a.toNat, b := b.toNat }
  | .movi a imm => { a := a.toNat, imm8 := imm.toNat }
  | .cmp a b => { a := a.toNat, b := b.toNat }
  | .je imm => { imm11 := imm.toNat }
  | .jn imm => { imm11 := imm.toNat }
  | .jg imm => { imm11 := imm.toNat }
  | .jl imm => { imm11 := imm.toNat }
  | .add a b => { a := a.toNat, b := b.toNat }
  | .addi a imm => { a := a.toNat, imm8 := imm.toNat }
  | .sub a b => { a := a.toNat, b := b.toNat }
  | .subi a imm => { a := a.toNat, imm8 := imm.toNat }
  | .mod a b => { a := a.toNat, b := b.toNat }
  | .modi a imm => { a := a.toNat, imm8 := imm.toNat }
  | .and a b => { a := a.toNat, b := b.toNat }
  | .or a b => { a := a.toNat, b := b.toNat }
  | .xor a b => { a := a.toNat, b := b.toNat }
  | .bsl a b => { a := a.toNat, b := b.toNat }
  | .bsr a b => { a := a.toNat, b := b.toNat }
  | .bsli a imm => { a := a.toNat, imm8 := imm.toNat }
  | .bsri a imm => { a := a.toNat, imm8 := imm.toNat }
  | .ldw a b => { a := a.toNat, b := b.toNat }
  | .ldb a b => { a := a.toNat, b := b.toNat }
  | .stw a b => { a := a.toNat, b := b.toNat }
  | .stb a b => { a := a.toNat, b := b.toNat }
  | .push imm => { imm11 := imm.toNat }
  | .pop a => { a := a.toNat }
  | .halt => { }

/-- An instruction is well formed when its field values fit (R73). The operand types already see to it
(`Laws.instr_wellFormed`, log 28): ill-formed values exist only as numbers, in `RawFields`. -/
def Instr.wellFormed (i : Instr) : Bool :=
  i.fields.inRange

end Sys2Proof
end

