-- ==== Sys2Proof/Decode.lean ====
section
/-! DEFINITION. The Instruction Codec: the decoder (30_encoding.md R72, R75, R82, R83), then the encoder (R73, R76). -/

namespace Sys2Proof

/-! ## Byte order -/

/-- The word whose less significant byte is `lo` (R44, R48, R76). -/
def wordOfBytes (lo hi : Byte) : Word :=
  hi ++ lo

/-- `w mod 256`, the byte at the lower address (R45, R76). -/
def lowByte (w : Word) : Byte :=
  w.extractLsb' 0 8

/-- `w div 256`, the byte at the higher address (R45, R76). -/
def highByte (w : Word) : Byte :=
  w.extractLsb' 8 8

/-! ## The decoder's five fields (R72) -/

/-- `opcode = w[4:0]`. -/
def fieldOpcode (w : Word) : OpNumber :=
  w.extractLsb' 0 5

/-- `A = w[7:5]`. -/
def fieldA (w : Word) : RegIdx :=
  w.extractLsb' 5 3

/-- `B = w[10:8]`; bits 15..11 take no part (R72, 90_conflicts.md C2). -/
def fieldB (w : Word) : RegIdx :=
  w.extractLsb' 8 3

/-- `imm8 = w[15:8]`. -/
def fieldImm8 (w : Word) : Imm8 :=
  w.extractLsb' 8 8

/-- `imm11 = w[15:5]`. -/
def fieldImm11 (w : Word) : Imm11 :=
  w.extractLsb' 5 11

/-! ## Dispatch and decoding -/

/-- The instruction name whose `OPNUM` is the opcode (R82); at most one, since `OPNUM` is injective (R5, log 31). -/
def dispatch (o : OpNum) (n : OpNumber) : Option Op :=
  Op.all.find? fun k => o.num k == n

/-- The instruction of a name, with the fields its format uses taken from the word (R74). -/
def instrOf : Op → Word → Instr
  | .mov, w => .mov (fieldA w) (fieldB w)
  | .movi, w => .movi (fieldA w) (fieldImm8 w)
  | .cmp, w => .cmp (fieldA w) (fieldB w)
  | .je, w => .je (fieldImm11 w)
  | .jn, w => .jn (fieldImm11 w)
  | .jg, w => .jg (fieldImm11 w)
  | .jl, w => .jl (fieldImm11 w)
  | .add, w => .add (fieldA w) (fieldB w)
  | .addi, w => .addi (fieldA w) (fieldImm8 w)
  | .sub, w => .sub (fieldA w) (fieldB w)
  | .subi, w => .subi (fieldA w) (fieldImm8 w)
  | .mod, w => .mod (fieldA w) (fieldB w)
  | .modi, w => .modi (fieldA w) (fieldImm8 w)
  | .and, w => .and (fieldA w) (fieldB w)
  | .or, w => .or (fieldA w) (fieldB w)
  | .xor, w => .xor (fieldA w) (fieldB w)
  | .bsl, w => .bsl (fieldA w) (fieldB w)
  | .bsr, w => .bsr (fieldA w) (fieldB w)
  | .bsli, w => .bsli (fieldA w) (fieldImm8 w)
  | .bsri, w => .bsri (fieldA w) (fieldImm8 w)
  | .ldw, w => .ldw (fieldA w) (fieldB w)
  | .ldb, w => .ldb (fieldA w) (fieldB w)
  | .stw, w => .stw (fieldA w) (fieldB w)
  | .stb, w => .stb (fieldA w) (fieldB w)
  | .push, w => .push (fieldImm11 w)
  | .pop, w => .pop (fieldA w)
  | .halt, _ => .halt

/-- Why bytes are no instruction. -/
inductive DecodeError
  /-- No instruction has this word's opcode (R83). -/
  | illegalInstruction (w : Word)
  /-- Fewer than the two bytes of an instruction word (R70). Never met by the core, whose fetch reads two bytes (log 29). -/
  | truncated
deriving DecidableEq, Repr

/-- Decode and dispatch of one word, stages 2 and 3 of the step (R72, R82, R83, R110). Total on all 65536 words; ignored bits are
not examined (R75; UNVERIFIED, log 15). -/
def decode (o : OpNum) (w : Word) : Except DecodeError Instr :=
  match dispatch o (fieldOpcode w) with
  | some k => .ok (instrOf k w)
  | none => .error (.illegalInstruction w)

/-- The instruction at the head of a list of bytes and the bytes after it: an instruction is always two bytes, the less significant
first (R70, R76). -/
def decodeBytes (o : OpNum) : List Byte → Except DecodeError (Instr × List Byte)
  | lo :: hi :: rest => (decode o (wordOfBytes lo hi)).map fun i => (i, rest)
  | _ => .error .truncated

/-- The bytes of an instruction whose bits are the low `nbits` bits of `w`, as memory holds them (R76). -/
def tableBytes (nbits w : Nat) : List Byte :=
  [lowByte (BitVec.ofNat 16 (w % 2 ^ nbits)), highByte (BitVec.ofNat 16 (w % 2 ^ nbits))]

/-- What the decoder reads, with the default `OPNUM`, from an instruction word numbered as spec/opcode_table.json numbers its
bits. -/
def decodeTableWord (nbits w : Nat) : Option Instr :=
  match decodeBytes OpNum.default (tableBytes nbits w) with
  | .ok (i, _) => some i
  | .error _ => none

/-! ## The encoder -/

/-- Format RR: the opcode in bits 4..0, `A` shifted to bit 5, `B` shifted to bit 8, OR-ed together. As in R73 nothing checks the
ranges: a value too large spills into the fields above it and bits above 15 are lost. -/
def encodeRR (op a b : Nat) : Word :=
  BitVec.ofNat 16 op ||| BitVec.ofNat 16 (a * 2 ^ 5) ||| BitVec.ofNat 16 (b * 2 ^ 8)

/-- Format RI (R73). -/
def encodeRI (op a i8 : Nat) : Word :=
  BitVec.ofNat 16 op ||| BitVec.ofNat 16 (a * 2 ^ 5) ||| BitVec.ofNat 16 (i8 * 2 ^ 8)

/-- Format R (R73). -/
def encodeR (op a : Nat) : Word :=
  BitVec.ofNat 16 op ||| BitVec.ofNat 16 (a * 2 ^ 5)

/-- Format J (R73). -/
def encodeJ (op i11 : Nat) : Word :=
  BitVec.ofNat 16 op ||| BitVec.ofNat 16 (i11 * 2 ^ 5)

/-- Format Z (R73). -/
def encodeZ (op : Nat) : Word :=
  BitVec.ofNat 16 op

/-- The word of an opcode number and field values, by format (R73). -/
def encodeFields (fmt : Format) (op : Nat) (f : RawFields) : Word :=
  match fmt with
  | .rr => encodeRR op f.a f.b
  | .ri => encodeRI op f.a f.imm8
  | .r => encodeR op f.a
  | .j => encodeJ op f.imm11
  | .z => encodeZ op

/-- The canonical word of an instruction: ignored bits are 0 (R73, R75). -/
def encode (o : OpNum) (i : Instr) : Word :=
  encodeFields i.op.format (o.num i.op).toNat i.fields

/-- A word with the bits its format ignores set to 0 (R74, R75, R86). -/
def clearIgnored (fmt : Format) (w : Word) : Word :=
  match fmt with
  | .rr => w &&& 0x07FF#16
  | .ri => w
  | .r => w &&& 0x00FF#16
  | .j => w
  | .z => w &&& 0x001F#16

/-- An instruction word as memory and the program image hold it (R76). -/
def wordBytes (w : Word) : List Byte :=
  [lowByte w, highByte w]

/-- The program image of a list of instructions: each word's low byte, then its high byte (R76, R104). -/
def image (o : OpNum) (is : List Instr) : List Byte :=
  is.flatMap fun i => wordBytes (encode o i)

end Sys2Proof
end

