-- ==== Sys2Proof/Machine/State.lean ====
section
/-! DEFINITION. The state of the core as plain data, the causes it can stop with, and its value after reset (10_state.md). -/

namespace Sys2Proof.Machine

/-- The five fault causes (60_exceptions.md R241). A fault is taken: the step answers a NEXT state whose fault record holds the cause
(R242, log 5), so `exec` and `step` never answer `Host.Outcome.fault`. All five are safe: where the source leaves behaviour
undefined or fatal the machine stops, and a faulted run is never a good run (92_eei_decisions.md D9 to D12). -/
inductive Fault
  /-- Code 1, raised by stage 3 of any step: no instruction has the word's opcode. `info` is the word. Safe. -/
  | illegalInstruction
  /-- Code 2, raised by MOD and MODI when the divisor is 0. `info` is the instruction word. Safe. -/
  | divideByZero
  /-- Code 3, raised by stage 1 of any step when `pc + 1 >= MEM_SIZE`. `info` is `pc`. Safe. -/
  | fetchOutOfRange
  /-- Code 4, raised by LDW, LDB and POP for an address outside memory. `info` is the address. Safe. -/
  | loadOutOfRange
  /-- Code 5, raised by STW, STB and PUSH for an address outside memory. `info` is the address. Safe. -/
  | storeOutOfRange
deriving DecidableEq, Repr

/-- What a fault records: its cause and 16 bits of information (10_state.md R20, 60_exceptions.md R241). -/
structure FaultRecord where
  cause : Fault
  info : Word
deriving DecidableEq, Repr

/-- The three run states (00_scope.md R7). -/
inductive RunState
  | running
  | halted
  | faulted (r : FaultRecord)
deriving DecidableEq, Repr

/-- Why the model gives no answer. -/
inductive Refusal
  /-- An instruction without a meaning, refused by `exec`; no arm is left that answers it. Safe. -/
  | notModelled (mnemonic : String)
  /-- Refused by `State.launch`: the program image does not fit in memory, and the spec defines no reset for it
  (70_reset_and_hazards.md R282, 93_implementation_defined.md U7). Safe. -/
  | imageDoesNotFit
  /-- Refused by `State.launch`: the parameters break a constraint of 00_scope.md R5, so no core has them (log 11). Safe. -/
  | badParameters
deriving DecidableEq, Repr

/-- Memory as (address, byte) pairs; an unlisted address reads as 0, its reset value (R26). `Memory.wf` is its canonical form. -/
abbrev Memory := List Host.Cell

/-- The complete state of the core (10_state.md R10 to R26) and, in `cfg`, its parameters. -/
structure State where
  /-- The parameters (00_scope.md R5): the model's own field, an argument of every step (R115) and written by none (log 1). -/
  cfg : Config
  /-- `x[0]` to `x[7]` (R10). -/
  regs : Vector Word 8
  /-- The instruction pointer (R15). -/
  pc : Word
  /-- The stack pointer: the address of the PUSH and POP slot (R18). -/
  sp : Word
  /-- The halt flag (R19). -/
  halt : Bool
  /-- The fault record, empty until a step faults (R20). -/
  fault : Option FaultRecord
  /-- The memory array (R24). -/
  mem : Memory
deriving DecidableEq, Repr

/-- The core right after reset (R26, R280) with the parameters `T0` (DESIGN CHOICE, log 2) and an empty program image (log 3).
`State.resetWith` is reset for any parameters and image. -/
def State.reset : State :=
  { cfg := Config.t0
    regs := Vector.replicate 8 0#16
    pc := 0x0100#16
    sp := 0#16
    halt := false
    fault := none
    mem := [] }

end Sys2Proof.Machine
end

