-- ==== Sys2Proof/Machine/Ops.lean ====
section
/-! DEFINITION. The named operations over memory, registers, pointers and the fault record that every instruction is made of
(20_memory.md R44 to R47, 40_cycle_and_dispatch.md R110, 60_exceptions.md R242). -/

namespace Sys2Proof.Machine

/-- What a step or a meaning answers. -/
abbrev Result := Host.Outcome State Fault Refusal

/-! ## The memory array -/

/-- The byte at an address: the listed one, else 0 (R24, R26). -/
def Memory.read : Memory → Nat → Byte
  | [], _ => 0#8
  | (b, v) :: m, a => if b = a then v else Memory.read m a

/-- List a byte at an address, before the first address above it. -/
def Memory.insert : Memory → Nat → Byte → Memory
  | [], a, v => [(a, v)]
  | (b, u) :: m, a, v => if a < b then (a, v) :: (b, u) :: m else (b, u) :: Memory.insert m a v

/-- Unlist an address. -/
def Memory.erase (m : Memory) (a : Nat) : Memory :=
  m.filter fun c => c.1 != a

/-- Write one byte. A zero is not listed, since an unlisted address reads as 0: equal memories are equal lists. -/
def Memory.write (m : Memory) (a : Nat) (v : Byte) : Memory :=
  if v = 0#8 then m.erase a else (m.erase a).insert a v

/-- Write bytes at rising addresses. -/
def Memory.writeBytes : Memory → Nat → List Byte → Memory
  | m, _, [] => m
  | m, a, v :: vs => Memory.writeBytes (m.write a v) (a + 1) vs

/-- Write a byte, the low one of `v`, or a word, low byte first (R45, R48). STW's byte order is UNVERIFIED (log 13). -/
def Memory.store (m : Memory) (a : Nat) (n : Width) (v : Word) : Memory :=
  match n with
  | .byte => m.write a (lowByte v)
  | .word => (m.write a (lowByte v)).write (a + 1) (highByte v)

/-- Every listed address is above `a`, rising, with a byte that is not 0. -/
def Memory.wfAbove : Nat → Memory → Bool
  | _, [] => true
  | a, (b, v) :: m => decide (a < b) && v != 0#8 && Memory.wfAbove b m

/-- The canonical form: addresses strictly rising and no zero byte listed. -/
def Memory.wf : Memory → Bool
  | [] => true
  | (b, v) :: m => v != 0#8 && Memory.wfAbove b m

/-- Every listed address is one of the `size` addresses that exist (R24). -/
def Memory.within (m : Memory) (size : Nat) : Bool :=
  m.all fun c => decide (c.1 < size)

namespace State

/-! ## Registers and pointers -/

/-- `x[r]` (R10). -/
def reg (s : State) (r : RegIdx) : Word :=
  s.regs[r.toNat]

/-- `x[r] <- v`; no register is hard-wired (R10, R11). -/
def setReg (s : State) (r : RegIdx) (v : Word) : State :=
  { s with regs := s.regs.set r.toNat v }

/-- `pc <- t`, by a taken jump (R142). -/
def setPc (s : State) (t : Word) : State :=
  { s with pc := t }

/-- `halt <- true` (R19, R230). -/
def setHalt (s : State) : State :=
  { s with halt := true }

/-- Stage 5: `pc <- (pc + 2) mod 65536` (R16, R110). The wrap is UNVERIFIED (log 12). -/
def advance (s : State) : State :=
  { s with pc := s.pc + 2#16 }

/-- The end of an instruction that raised nothing: stage 5, then the next state (log 8). -/
def complete (s : State) : Result :=
  .next s.advance

/-! ## Run state and faults -/

/-- The run state (R7, R19, R20). A state that is both halted and faulted is reached by no step; it counts as faulted (log 9). -/
def runState (s : State) : RunState :=
  match s.fault with
  | some r => .faulted r
  | none => if s.halt then .halted else .running

/-- `raise F(info)` (R242): the state before the step, but for the run state. There is no handler, no saved `pc` and no return
(R244, R245), so this is all of taking a fault. -/
def raise (s : State) (f : Fault) (info : Word) : State :=
  { s with fault := some { cause := f, info := info } }

/-- An instruction or a stage that raises a fault: the next state is the faulted one (log 5). -/
def faults (s : State) (f : Fault) (info : Word) : Result :=
  .next (s.raise f info)

/-! ## Memory accesses -/

/-- The byte at an address of the memory array, without a range check (log 10). -/
def byteAt (s : State) (a : Nat) : Byte :=
  s.mem.read a

/-- The access of `n` bytes at `a` is in range: not `a + n - 1 >= MEM_SIZE`. The sum is of natural numbers and does not wrap
(R44, R45). -/
def inRange (s : State) (a : Word) (n : Width) : Bool :=
  decide (a.toNat + n.bytes - 1 < s.cfg.memSize)

/-- The two bytes at `a` as a word, without a range check. -/
def wordAt (s : State) (a : Nat) : Word :=
  wordOfBytes (s.byteAt a) (s.byteAt (a + 1))

/-- `MemRead(a, n)`, zero-extended to 16 bits (R44); `none` when out of range, where the caller names the fault (R46). Little-endian
(R48; UNVERIFIED for the fetch, log 13), no alignment requirement (R49; UNVERIFIED, log 14). -/
def memRead (s : State) (a : Word) (n : Width) : Option Word :=
  if s.inRange a n then
    some (match n with
      | .byte => (s.byteAt a.toNat).zeroExtend 16
      | .word => s.wordAt a.toNat)
  else none

/-- `MemWrite(a, n, v)` (R45): the low byte of `v` at `a` and, for a word, its high byte at `a + 1`; `none`, and no byte written, when
out of range. -/
def memWrite (s : State) (a : Word) (n : Width) (v : Word) : Option State :=
  if s.inRange a n then some { s with mem := s.mem.store a.toNat n v } else none

/-- A load of `n` bytes at `a` into `x[r]` (R201, R202, R222): `LoadOutOfRange(a)` when out of range (R46). -/
def loadInto (s : State) (r : RegIdx) (a : Word) (n : Width) : Result :=
  match s.memRead a n with
  | some v => (s.setReg r v).complete
  | none => s.faults .loadOutOfRange a

/-- A store of the low `n` bytes of `v` at `a` (R203, R204, R221): `StoreOutOfRange(a)` when out of range (R46). -/
def storeAt (s : State) (a : Word) (n : Width) (v : Word) : Result :=
  match s.memWrite a n v with
  | some t => t.complete
  | none => s.faults .storeOutOfRange a

/-! ## The stages around an instruction -/

/-- Stage 1, the fetch: `MemRead(pc, 2)` (R47, R110). -/
def fetch (s : State) : Option Word :=
  s.memRead s.pc .word

/-- The word of the instruction being executed: the two bytes at `pc`, which the fetch of this step has read. `pc` and memory still
are as they were then (R15, R113). DEDUCED (log 7). -/
def instrWord (s : State) : Word :=
  s.wordAt s.pc.toNat

/-- `DivideByZero(w)`, `w` being the instruction word (R165, R166, R241). -/
def divideByZero (s : State) : Result :=
  s.faults .divideByZero s.instrWord

/-- The fetch found `pc + 1 >= MEM_SIZE`: `FetchOutOfRange(pc)` (R47, R110). -/
def fetchFault (s : State) : Result :=
  s.faults .fetchOutOfRange s.pc

/-- Stage 3 found no instruction: `IllegalInstruction(w)` (R83, R110). -/
def illegalInstruction (s : State) (w : Word) : Result :=
  s.faults .illegalInstruction w

/-- A step attempted in `Halted` or `Faulted`: no step exists and the state does not change (R7, R111, 95_test_vectors.md E14).
DESIGN CHOICE (log 6): the answer is that same state. -/
def stay (s : State) : Result :=
  .next s

/-- Place the bytes of an instruction where the next fetch reads them; nothing happens where the fetch would be out of range. -/
def placeWord (s : State) (nbits w : Nat) : State :=
  if s.inRange s.pc .word then { s with mem := s.mem.writeBytes s.pc.toNat (tableBytes nbits w) } else s

end State

/-- The code of a cause, 1 to 5 (R241). -/
def faultCode : Fault → BitVec 3
  | .illegalInstruction => 1#3
  | .divideByZero => 2#3
  | .fetchOutOfRange => 3#3
  | .loadOutOfRange => 4#3
  | .storeOutOfRange => 5#3

end Sys2Proof.Machine
end

