-- ==== Sys2Proof/Machine/Operands.lean ====
section
/-! DEFINITION. Operands: how immediates enter an operation (30_encoding.md R77), which registers an instruction reads and writes
(10_state.md R12, R31), and which data access it makes (20_memory.md R50). -/

namespace Sys2Proof.Machine

/-- `zext_16(imm8)`, 0..255 (R77). -/
def zextImm8 (imm : Imm8) : Word :=
  imm.zeroExtend 16

/-- `zext_16(imm11)`, 0..2047 (R77). -/
def zextImm11 (imm : Imm11) : Word :=
  imm.zeroExtend 16

/-- The register on read port 1: field `A`, or `x[0]` for the conditional jumps; `none` when the instruction does not read it
(R12, R31). -/
def readPort1 : Instr → Option RegIdx
  | .cmp a _ | .add a _ | .addi a _ | .sub a _ | .subi a _ | .mod a _ => some a
  | .modi a _ | .and a _ | .or a _ | .xor a _ | .bsl a _ | .bsr a _ => some a
  | .bsli a _ | .bsri a _ | .stw a _ | .stb a _ => some a
  | .je _ | .jn _ | .jg _ | .jl _ => some 0#3
  | .mov _ _ | .movi _ _ | .ldw _ _ | .ldb _ _ | .push _ | .pop _ => none
  | .halt => none

/-- The register on read port 2: field `B`, in format RR (R12, R31). -/
def readPort2 : Instr → Option RegIdx
  | .mov _ b | .cmp _ b | .add _ b | .sub _ b | .mod _ b | .and _ b => some b
  | .or _ b | .xor _ b | .bsl _ b | .bsr _ b | .ldw _ b | .ldb _ b => some b
  | .stw _ b | .stb _ b => some b
  | .movi _ _ | .je _ | .jn _ | .jg _ | .jl _ | .addi _ _ => none
  | .subi _ _ | .modi _ _ | .bsli _ _ | .bsri _ _ | .push _ | .pop _ => none
  | .halt => none

/-- The register on the write port: field `A`, or `x[0]` for CMP (R12, R31). -/
def writePort : Instr → Option RegIdx
  | .cmp _ _ => some 0#3
  | .mov a _ | .movi a _ | .add a _ | .addi a _ | .sub a _ | .subi a _ => some a
  | .mod a _ | .modi a _ | .and a _ | .or a _ | .xor a _ | .bsl a _ => some a
  | .bsr a _ | .bsli a _ | .bsri a _ | .ldw a _ | .ldb a _ | .pop a => some a
  | .je _ | .jn _ | .jg _ | .jl _ | .stw _ _ | .stb _ _ => none
  | .push _ | .halt => none

/-- The data access of an instruction: direction, address, size and, for a write, the value (R32, R50). -/
inductive Access
  | read (a : Word) (n : Width)
  | write (a : Word) (n : Width) (v : Word)
deriving DecidableEq, Repr

/-- The one data access an instruction makes beside its fetch, or none (R50). -/
def dataAccess (s : State) : Instr → Option Access
  | .ldw _ b => some (.read (s.reg b) .word)
  | .ldb _ b => some (.read (s.reg b) .byte)
  | .stw a b => some (.write (s.reg b) .word (s.reg a))
  | .stb a b => some (.write (s.reg b) .byte (s.reg a))
  | .push imm => some (.write s.sp .word (zextImm11 imm))
  | .pop _ => some (.read s.sp .word)
  | .mov _ _ | .movi _ _ | .cmp _ _ | .je _ | .jn _ | .jg _ => none
  | .jl _ | .add _ _ | .addi _ _ | .sub _ _ | .subi _ _ | .mod _ _ => none
  | .modi _ _ | .and _ _ | .or _ _ | .xor _ _ | .bsl _ _ | .bsr _ _ => none
  | .bsli _ _ | .bsri _ _ | .halt => none

end Sys2Proof.Machine
end

