-- ==== Sys2Proof/Machine/Arithmetic.lean ====
section
/-! DEFINITION. Integer arithmetic on 16-bit unsigned values, modulo 65536, with no carry or overflow flag (43_arithmetic.md R160 to
R166). -/

namespace Sys2Proof.Machine

/-- `x[A] <- x[A] mod d`, unsigned, for MOD and MODI; `DivideByZero(w)` when the divisor `d` is 0, before anything is written
(R165, R166; log 21). -/
def State.remainder (s : State) (a : RegIdx) (d : Word) : Result :=
  if d = 0#16 then s.divideByZero else (s.setReg a (s.reg a % d)).complete

/-- ADD (R161). -/
def execAdd (a b : RegIdx) (s : State) : Result :=
  (s.setReg a (s.reg a + s.reg b)).complete

/-- ADDI (R162). -/
def execAddi (a : RegIdx) (imm : Imm8) (s : State) : Result :=
  (s.setReg a (s.reg a + zextImm8 imm)).complete

/-- SUB (R163). -/
def execSub (a b : RegIdx) (s : State) : Result :=
  (s.setReg a (s.reg a - s.reg b)).complete

/-- SUBI (R164). -/
def execSubi (a : RegIdx) (imm : Imm8) (s : State) : Result :=
  (s.setReg a (s.reg a - zextImm8 imm)).complete

/-- MOD (R165). -/
def execMod (a b : RegIdx) (s : State) : Result :=
  s.remainder a (s.reg b)

/-- MODI (R166). -/
def execModi (a : RegIdx) (imm : Imm8) (s : State) : Result :=
  s.remainder a (zextImm8 imm)

end Sys2Proof.Machine
end

