-- ==== Sys2Proof/Machine/Flags.lean ====
section
/-! DEFINITION. The comparison code, the only condition code of the machine, and the four conditions on it (10_state.md R21,
42_compare_branch.md R141, R143 to R147). -/

namespace Sys2Proof.Machine

/-- `signed16(v)`: a 16-bit value read as two's complement (00_scope.md section 6). Only JL uses it (R160). -/
def signed16 (v : Word) : Int :=
  if v.toNat < 32768 then (v.toNat : Int) else (v.toNat : Int) - 65536

/-- The code CMP writes to `x[0]`: 0 when `a < b` unsigned, else `(a - b + 1) mod 65536` (R141). The wrap at (65535, 0) is
UNVERIFIED (log 19). -/
def compareCode (a b : Word) : Word :=
  if a.toNat < b.toNat then 0#16 else a - b + 1#16

/-- JE's condition: `v = 1` (R143). -/
def condE (v : Word) : Bool :=
  v == 1#16

/-- JN's condition: `v != 1` (R144). -/
def condN (v : Word) : Bool :=
  v != 1#16

/-- JG's condition: `v > 1`, unsigned (R145). -/
def condG (v : Word) : Bool :=
  decide (v.toNat > 1)

/-- JL's condition: `signed16(v) < 1` (R146). The width of the signed reading is UNVERIFIED (log 18). -/
def condL (v : Word) : Bool :=
  decide (signed16 v < 1)

end Sys2Proof.Machine
end

