-- ==== Sys2Proof/Machine/CompareBranch.lean ====
section
/-! DEFINITION. Compare and the conditional jumps (42_compare_branch.md R141 to R149). -/

namespace Sys2Proof.Machine

/-- CMP (R141): `x[0]` receives the comparison code of `x[A]` and `x[B]`, both read first. -/
def execCmp (a b : RegIdx) (s : State) : Result :=
  (s.setReg 0#3 (compareCode (s.reg a) (s.reg b))).complete

/-- The common part of the jumps (R142): `pc <- zext_16(imm11)` when the condition holds of `x[0]`; the advance follows either way, so
a taken jump goes on at `imm11 + 2` (log 23). -/
def State.jumpIf (s : State) (cond : Word → Bool) (imm : Imm11) : Result :=
  if cond (s.reg 0#3) then (s.setPc (zextImm11 imm)).complete else s.complete

/-- JE (R143). -/
def execJe (imm : Imm11) (s : State) : Result :=
  s.jumpIf condE imm

/-- JN (R144). -/
def execJn (imm : Imm11) (s : State) : Result :=
  s.jumpIf condN imm

/-- JG (R145). -/
def execJg (imm : Imm11) (s : State) : Result :=
  s.jumpIf condG imm

/-- JL (R146). -/
def execJl (imm : Imm11) (s : State) : Result :=
  s.jumpIf condL imm

end Sys2Proof.Machine
end

