-- ==== Sys2Proof/Machine/LoadStore.lean ====
section
/-! DEFINITION. Loads and stores: register indirect, one data access, base register never modified (45_load_store.md R200 to R204). -/

namespace Sys2Proof.Machine

/-- LDW (R201): `x[A] <- MemRead(x[B], 2)`. -/
def execLdw (a b : RegIdx) (s : State) : Result :=
  s.loadInto a (s.reg b) .word

/-- LDB (R202): `x[A] <- zext_16(MemRead(x[B], 1))`. The zero extension is UNVERIFIED (log 17). -/
def execLdb (a b : RegIdx) (s : State) : Result :=
  s.loadInto a (s.reg b) .byte

/-- STW (R203): `MemWrite(x[B], 2, x[A])`. -/
def execStw (a b : RegIdx) (s : State) : Result :=
  s.storeAt (s.reg b) .word (s.reg a)

/-- STB (R204): `MemWrite(x[B], 1, x[A])`, the low byte. That it is the low byte is UNVERIFIED (log 17). -/
def execStb (a b : RegIdx) (s : State) : Result :=
  s.storeAt (s.reg b) .byte (s.reg a)

end Sys2Proof.Machine
end

