-- ==== Sys2Proof/Machine/LogicShift.lean ====
section
/-! DEFINITION. Bitwise logic and shifts (44_logic_shift.md R180 to R188). -/

namespace Sys2Proof.Machine

/-- `(v * 2^n) mod 65536`, 0 for every `n >= 16`: the amount is the whole number, not reduced (R184). UNVERIFIED for `n >= 16`
(log 16). -/
def shiftLeft (v : Word) (n : Nat) : Word :=
  if 16 ≤ n then 0#16 else v <<< n

/-- `v div 2^n`, zeros entering at the top, 0 for every `n >= 16` (R184). UNVERIFIED for `n >= 16` (log 16). -/
def shiftRight (v : Word) (n : Nat) : Word :=
  if 16 ≤ n then 0#16 else v >>> n

/-- AND (R181). -/
def execAnd (a b : RegIdx) (s : State) : Result :=
  (s.setReg a (s.reg a &&& s.reg b)).complete

/-- OR (R182). -/
def execOr (a b : RegIdx) (s : State) : Result :=
  (s.setReg a (s.reg a ||| s.reg b)).complete

/-- XOR (R183). -/
def execXor (a b : RegIdx) (s : State) : Result :=
  (s.setReg a (s.reg a ^^^ s.reg b)).complete

/-- BSL (R185). -/
def execBsl (a b : RegIdx) (s : State) : Result :=
  (s.setReg a (shiftLeft (s.reg a) (s.reg b).toNat)).complete

/-- BSR (R186). -/
def execBsr (a b : RegIdx) (s : State) : Result :=
  (s.setReg a (shiftRight (s.reg a) (s.reg b).toNat)).complete

/-- BSLI (R187). -/
def execBsli (a : RegIdx) (imm : Imm8) (s : State) : Result :=
  (s.setReg a (shiftLeft (s.reg a) imm.toNat)).complete

/-- BSRI (R188). -/
def execBsri (a : RegIdx) (imm : Imm8) (s : State) : Result :=
  (s.setReg a (shiftRight (s.reg a) imm.toNat)).complete

end Sys2Proof.Machine
end

