-- ==== Sys2Proof/Machine/Move.lean ====
section
/-! DEFINITION. Move instructions (41_move.md R130, R131). -/

namespace Sys2Proof.Machine

/-- MOV (R130): `x[A] <- x[B]`. -/
def execMov (a b : RegIdx) (s : State) : Result :=
  (s.setReg a (s.reg b)).complete

/-- MOVI (R131): `x[A] <- zext_16(imm8)`. -/
def execMovi (a : RegIdx) (imm : Imm8) (s : State) : Result :=
  (s.setReg a (zextImm8 imm)).complete

end Sys2Proof.Machine
end

