-- ==== Sys2Proof/Machine/Stack.lean ====
section
/-! DEFINITION. The stack-slot instructions: one two-byte slot at `sp`, which neither moves (46_stack.md R220 to R222, log 22). -/

namespace Sys2Proof.Machine

/-- PUSH (R221): `MemWrite(sp, 2, zext_16(imm11))`. -/
def execPush (imm : Imm11) (s : State) : Result :=
  s.storeAt s.sp .word (zextImm11 imm)

/-- POP (R222): `x[A] <- MemRead(sp, 2)`. -/
def execPop (a : RegIdx) (s : State) : Result :=
  s.loadInto a s.sp .word

end Sys2Proof.Machine
end

