-- ==== Sys2Proof/Machine/System.lean ====
section
/-! DEFINITION. The one system instruction (47_halt.md R230, R231). -/

namespace Sys2Proof.Machine

/-- HALT (R230): `halt <- true`; the advance follows as for every instruction (log 20). -/
def execHalt (s : State) : Result :=
  s.setHalt.complete

end Sys2Proof.Machine
end

