-- ==== Sys2Proof/Machine/Dispatch.lean ====
section
/-! DEFINITION. Dispatch: each of the 27 instructions to its meaning, stages 4 and 5 of the step (40_cycle_and_dispatch.md R110, R112). -/

namespace Sys2Proof.Machine

def exec (i : Instr) (s : State) : Host.Outcome State Fault Refusal :=
  match i with
  | .mov a b => Sys2Proof.Machine.execMov a b s
  | .movi a imm => Sys2Proof.Machine.execMovi a imm s
  | .cmp a b => Sys2Proof.Machine.execCmp a b s
  | .je imm => Sys2Proof.Machine.execJe imm s
  | .jn imm => Sys2Proof.Machine.execJn imm s
  | .jg imm => Sys2Proof.Machine.execJg imm s
  | .jl imm => Sys2Proof.Machine.execJl imm s
  | .add a b => Sys2Proof.Machine.execAdd a b s
  | .addi a imm => Sys2Proof.Machine.execAddi a imm s
  | .sub a b => Sys2Proof.Machine.execSub a b s
  | .subi a imm => Sys2Proof.Machine.execSubi a imm s
  | .mod a b => Sys2Proof.Machine.execMod a b s
  | .modi a imm => Sys2Proof.Machine.execModi a imm s
  | .and a b => Sys2Proof.Machine.execAnd a b s
  | .or a b => Sys2Proof.Machine.execOr a b s
  | .xor a b => Sys2Proof.Machine.execXor a b s
  | .bsl a b => Sys2Proof.Machine.execBsl a b s
  | .bsr a b => Sys2Proof.Machine.execBsr a b s
  | .bsli a imm => Sys2Proof.Machine.execBsli a imm s
  | .bsri a imm => Sys2Proof.Machine.execBsri a imm s
  | .ldw a b => Sys2Proof.Machine.execLdw a b s
  | .ldb a b => Sys2Proof.Machine.execLdb a b s
  | .stw a b => Sys2Proof.Machine.execStw a b s
  | .stb a b => Sys2Proof.Machine.execStb a b s
  | .push imm => Sys2Proof.Machine.execPush imm s
  | .pop a => Sys2Proof.Machine.execPop a s
  | .halt => Sys2Proof.Machine.execHalt s

end Sys2Proof.Machine
end

