-- ==== Sys2Proof/Machine/Step.lean ====
section
/-! DEFINITION. One step of the core (40_cycle_and_dispatch.md R110, R111). -/

namespace Sys2Proof.Machine

/-- One step (R110): in `Running`, fetch, decode and dispatch, then the instruction; a stage that raises a fault ends the step. In
`Halted` and `Faulted` there is no step (R111, log 6). -/
def step (s : State) : Host.Outcome State Fault Refusal :=
  match s.runState with
  | .running =>
    match s.fetch with
    | none => s.fetchFault
    | some w =>
      match decode s.cfg.opnum w with
      | .error _ => s.illegalInstruction w
      | .ok i => exec i s
  | .halted => s.stay
  | .faulted _ => s.stay

/-- The state with an instruction word stored where the next step fetches: the two bytes at `pc`. It stands for a program image that
has that word there (70_reset_and_hazards.md R280, log 3). -/
def State.withFetchWord (s : State) (nbits w : Nat) : State :=
  s.placeWord nbits w

end Sys2Proof.Machine
end

