-- ==== Sys2Proof/Machine/Asm.lean ====
section
/-! DEFINITION. The assembly notation: from the text of a program to instructions and to the program image, and back (30_encoding.md
R95 to R104; log 27). The reference assembler as a program is out of scope (00_scope.md R3); a line outside the notation has no
meaning here and is answered by `none`. -/

namespace Sys2Proof.Machine

/-- The mnemonic of each instruction: the lower-case opcode name, `hlt` for HALT (R100). -/
def mnemonic : Op → List Char
  | .mov => ['m', 'o', 'v']
  | .movi => ['m', 'o', 'v', 'i']
  | .cmp => ['c', 'm', 'p']
  | .je => ['j', 'e']
  | .jn => ['j', 'n']
  | .jg => ['j', 'g']
  | .jl => ['j', 'l']
  | .add => ['a', 'd', 'd']
  | .addi => ['a', 'd', 'd', 'i']
  | .sub => ['s', 'u', 'b']
  | .subi => ['s', 'u', 'b', 'i']
  | .mod => ['m', 'o', 'd']
  | .modi => ['m', 'o', 'd', 'i']
  | .and => ['a', 'n', 'd']
  | .or => ['o', 'r']
  | .xor => ['x', 'o', 'r']
  | .bsl => ['b', 's', 'l']
  | .bsr => ['b', 's', 'r']
  | .bsli => ['b', 's', 'l', 'i']
  | .bsri => ['b', 's', 'r', 'i']
  | .ldw => ['l', 'd', 'w']
  | .ldb => ['l', 'd', 'b']
  | .stw => ['s', 't', 'w']
  | .stb => ['s', 't', 'b']
  | .push => ['p', 'u', 's', 'h']
  | .pop => ['p', 'o', 'p']
  | .halt => ['h', 'l', 't']

/-- Mnemonic recognition is case-sensitive exact match (R100). -/
def opOfMnemonic (m : List Char) : Option Op :=
  Op.all.find? fun k => mnemonic k == m

/-- A decimal digit. -/
def isDigit (c : Char) : Bool :=
  decide (48 ≤ c.toNat) && decide (c.toNat ≤ 57)

/-- A register operand is `r0` to `r7` and nothing else; digits 8 and 9 are outside the notation (R97). -/
def parseReg : List Char → Option Nat
  | [c, d] => if c = 'r' ∧ 48 ≤ d.toNat ∧ d.toNat ≤ 55 then some (d.toNat - 48) else none
  | _ => none

/-- The number of the decimal digits at the head of a text, after those already read: reading stops at the first character that is no
digit, and what follows is not looked at (R98). -/
def parseDigits : Nat → List Char → Nat
  | n, [] => n
  | n, c :: cs => if isDigit c then parseDigits (n * 10 + (c.toNat - 48)) cs else n

/-- Decimal digits, at least one, then anything (R98, R99). -/
def parseNat : List Char → Option Nat
  | [] => none
  | c :: cs => if isDigit c then some (parseDigits 0 (c :: cs)) else none

/-- A literal: an optional `-`, then decimal digits, read up to the first character that is no digit (R98, R99). -/
def parseLit : List Char → Option Int
  | [] => none
  | c :: cs =>
    if c = '-' then (parseNat cs).map fun (n : Nat) => -(n : Int)
    else (parseNat (c :: cs)).map fun (n : Nat) => (n : Int)

/-- `imm8 = n mod 256` (R99). -/
def litImm8 (n : Int) : Nat :=
  (n % 256).toNat

/-- `imm11 = n mod 2048` (R99). -/
def litImm11 (n : Int) : Nat :=
  (n % 2048).toNat

/-- White space, for trimming. -/
def isBlank (c : Char) : Bool :=
  c == ' ' || c == '\t' || c == '\r' || c == '\n'

/-- Without white space at either end. -/
def trimBlanks (cs : List Char) : List Char :=
  (((cs.dropWhile isBlank).reverse).dropWhile isBlank).reverse

/-- The text before the first separator, and the text after it when there is one. -/
def breakAt (sep : Char) : List Char → List Char × Option (List Char)
  | [] => ([], none)
  | c :: cs => if c = sep then ([], some cs) else (c :: (breakAt sep cs).1, (breakAt sep cs).2)

/-- The pieces of a line: mnemonic up to the first space, first operand up to the first comma, second operand left-trimmed (R96). -/
structure LineParts where
  name : List Char
  first : Option (List Char)
  second : Option (List Char)
deriving DecidableEq, Repr

/-- Split a trimmed line (R96). -/
def splitLine (line : List Char) : LineParts :=
  match breakAt ' ' line with
  | (m, none) => { name := m, first := none, second := none }
  | (m, some rest) =>
    match breakAt ',' rest with
    | (a, b) => { name := m, first := some a, second := b.map fun t => t.dropWhile isBlank }

/-- The instruction of a name with given field values (R73, R99). -/
def instrOfFields (k : Op) (f : RawFields) : Instr :=
  instrOf k (encodeFields k.format 0 f)

/-- The immediate form that `mov`, `add`, `sub` and `mod` stand for when the second operand is a literal (R102). -/
def literalForm : Op → Option Op
  | .mov => some .movi
  | .add => some .addi
  | .sub => some .subi
  | .mod => some .modi
  | .movi | .cmp | .je | .jn | .jg | .jl | .addi | .subi | .modi | .and | .or | .xor => none
  | .bsl | .bsr | .bsli | .bsri | .ldw | .ldb | .stw | .stb | .push | .pop | .halt => none

/-- The second operand is a register operand when its first character is the register-prefix character `r` (R98). -/
def startsAsReg : List Char → Bool
  | c :: _ => c == 'r'
  | [] => false

/-- `mnemonic rA, rB` or, for the four mnemonics of R102, `mnemonic rA, literal`. -/
def operandsRR (k : Op) (x y : List Char) : Option Instr :=
  match parseReg x with
  | none => none
  | some a =>
    if startsAsReg y then (parseReg y).map fun b => instrOfFields k { a := a, b := b }
    else
      match literalForm k, parseLit y with
      | some l, some n => some (instrOfFields l { a := a, imm8 := litImm8 n })
      | _, _ => none

/-- `mnemonic rA, imm8`. -/
def operandsRI (k : Op) (x y : List Char) : Option Instr :=
  match parseReg x, parseLit y with
  | some a, some n => some (instrOfFields k { a := a, imm8 := litImm8 n })
  | _, _ => none

/-- Operands by format (R101). -/
def operands (k : Op) (x y : Option (List Char)) : Option Instr :=
  match k.format, x, y with
  | .rr, some x, some y => operandsRR k x y
  | .ri, some x, some y => operandsRI k x y
  | .r, some x, none => (parseReg x).map fun a => instrOfFields k { a := a }
  | .j, some x, none => (parseLit x).map fun n => instrOfFields k { imm11 := litImm11 n }
  | .z, none, none => some (instrOfFields k { })
  | _, _, _ => none

/-- One line gives one instruction (R95, R96). -/
def assembleLine (line : List Char) : Option Instr :=
  match opOfMnemonic (splitLine (trimBlanks line)).name with
  | none => none
  | some k => operands k (splitLine (trimBlanks line)).first (splitLine (trimBlanks line)).second

/-- The lines of a text (R95). -/
def splitLines : List Char → List (List Char)
  | [] => [[]]
  | c :: cs =>
    if c = '\n' then [] :: splitLines cs
    else
      match splitLines cs with
      | [] => [[c]]
      | l :: ls => (c :: l) :: ls

/-- All lines, in source order; `none` when one is outside the notation. -/
def assembleLines : List (List Char) → Option (List Instr)
  | [] => some []
  | l :: ls =>
    match assembleLine l, assembleLines ls with
    | some i, some is => some (i :: is)
    | _, _ => none

/-- A source text: each line that is not blank gives one instruction, in source order (R95). -/
def assemble (text : List Char) : Option (List Instr) :=
  assembleLines ((splitLines (trimBlanks text)).filter fun l => !(trimBlanks l).isEmpty)

/-- The assembler's output, the byte list `ROM` (R104). -/
def assembleImage (o : OpNum) (text : List Char) : Option (List Byte) :=
  (assemble text).map (image o)

/-- Decimal digits of a number below 10 to the power of the first argument, before the ones given. -/
def decimalAux : Nat → Nat → List Char → List Char
  | 0, _, acc => acc
  | k + 1, n, acc =>
    if n < 10 then Char.ofNat (48 + n) :: acc
    else decimalAux k (n / 10) (Char.ofNat (48 + n % 10) :: acc)

/-- A field value in decimal; every field value is below 100000. -/
def decimal (n : Nat) : List Char :=
  decimalAux 5 n []

/-- A register operand (R97). -/
def regText (n : Nat) : List Char :=
  ['r', Char.ofNat (48 + n)]

/-- The line of an instruction (R100, R101). -/
def asmText (i : Instr) : List Char :=
  match i.op.format with
  | .rr => mnemonic i.op ++ ' ' :: regText i.fields.a ++ ',' :: ' ' :: regText i.fields.b
  | .ri => mnemonic i.op ++ ' ' :: regText i.fields.a ++ ',' :: ' ' :: decimal i.fields.imm8
  | .r => mnemonic i.op ++ ' ' :: regText i.fields.a
  | .j => mnemonic i.op ++ ' ' :: decimal i.fields.imm11
  | .z => mnemonic i.op

/-- A source text: the line of each instruction, each ended by a newline (R95). -/
def asmProgram : List Instr → List Char
  | [] => []
  | i :: is => asmText i ++ '\n' :: asmProgram is

end Sys2Proof.Machine
end

