-- ==== Sys2Proof/Machine/Boundary.lean ====
section
/-! DEFINITION. The boundary to the host: reset with a program image, and the outputs (00_scope.md R8, 10_state.md R26, R33,
70_reset_and_hazards.md R280 to R284). -/

namespace Sys2Proof.Machine

/-- Reset with parameters and a program image (R26, R280): every register, `sp` and every other byte 0, `ROM[i]` at `ROM_BASE + i`,
`pc` at `ROM_BASE`, `Running`. There is one kind of reset and it does not depend on the state before it (R281). An image of odd
length is accepted (R282; UNVERIFIED, log 24). -/
def State.resetWith (c : Config) (rom : List Byte) : State :=
  { cfg := c
    regs := Vector.replicate 8 0#16
    pc := BitVec.ofNat 16 c.romBase
    sp := 0#16
    halt := false
    fault := none
    mem := Memory.writeBytes [] c.romBase rom }

/-- Start a core: reset, refused when the parameters break R5 or the image does not fit (R282, 93_implementation_defined.md U7;
log 11). -/
def State.launch (c : Config) (rom : List Byte) : Result :=
  if !c.wf then .refused .badParameters
  else if !c.imageFits rom then .refused .imageDoesNotFit
  else .next (State.resetWith c rom)

/-- The outputs of the block (R33). -/
structure HostView where
  halted : Bool
  faulted : Bool
  /-- `fault_cause`: 0 means no fault (R241). -/
  faultCause : BitVec 3
  /-- `fault_info`, when there is a fault record. -/
  faultInfo : Option Word
  /-- The read-only view of `x[0]` to `x[7]`. -/
  regs : Vector Word 8
deriving DecidableEq, Repr

/-- What the host sees of a state (R8, R33). -/
def State.hostView (s : State) : HostView :=
  { halted := s.halt
    faulted := s.fault.isSome
    faultCause := match s.fault with
      | none => 0#3
      | some r => faultCode r.cause
    faultInfo := s.fault.map FaultRecord.info
    regs := s.regs }

end Sys2Proof.Machine
end

