-- ==== Sys2Proof/Machine/Datapath.lean ====
section
/-! DEFINITION. The block structure of the core as a second design: register file ports, an execute unit working on exact numbers, a
memory unit, a pointer unit, and the ordered events of a step (10_state.md R30 to R32, 40_cycle_and_dispatch.md R114; log 25).
`step` does not use it; that the two agree is a statement about them. -/

namespace Sys2Proof.Machine

/-- What happens inside a step, in the order of R114. -/
inductive Event
  /-- (a) The fetch read. -/
  | fetchRead (a w : Word)
  /-- (b) Every fault check of the step is passed. -/
  | checksPassed
  /-- (b) A fault check is not passed: nothing else happens. -/
  | raise (f : Fault) (info : Word)
  /-- (c) The data read. -/
  | dataRead (a : Word) (n : Width) (v : Word)
  /-- (c) The data write. -/
  | dataWrite (a : Word) (n : Width) (v : Word)
  /-- (d) The register write. -/
  | regWrite (r : RegIdx) (v : Word)
  /-- (e) The `pc` write of a taken jump. -/
  | pcWrite (t : Word)
  /-- (f) The `halt` write of HALT. -/
  | haltWrite
  /-- (g) The advance. -/
  | advance
deriving DecidableEq, Repr

/-- The place of an event in the order (a) to (g) of R114. -/
def eventPlace : Event → Nat
  | .fetchRead _ _ => 0
  | .checksPassed => 1
  | .raise _ _ => 1
  | .dataRead _ _ _ => 2
  | .dataWrite _ _ _ => 2
  | .regWrite _ _ => 3
  | .pcWrite _ => 4
  | .haltWrite => 5
  | .advance => 6

/-- What an event does to the state. -/
def State.applyEvent (s : State) : Event → State
  | .fetchRead _ _ => s
  | .checksPassed => s
  | .raise f info => s.raise f info
  | .dataRead _ _ _ => s
  | .dataWrite a n v => (s.memWrite a n v).getD s
  | .regWrite r v => s.setReg r v
  | .pcWrite t => s.setPc t
  | .haltWrite => s.setHalt
  | .advance => s.advance

/-- The events of a step, one after the other. -/
def State.replay (s : State) (es : List Event) : State :=
  es.foldl State.applyEvent s

/-- What a read port delivers: the register's value before the step (R31, R113). -/
def State.readPort (s : State) : Option RegIdx → Word
  | some r => s.reg r
  | none => 0#16

/-- The divisor, for the two instructions that divide (R165, R166). -/
def divisor (s : State) : Instr → Option Word
  | .mod _ b => some (s.reg b)
  | .modi _ imm => some (zextImm8 imm)
  | .mov _ _ | .movi _ _ | .cmp _ _ | .je _ | .jn _ | .jg _ => none
  | .jl _ | .add _ _ | .addi _ _ | .sub _ _ | .subi _ _ | .and _ _ => none
  | .or _ _ | .xor _ _ | .bsl _ _ | .bsr _ _ | .bsli _ _ | .bsri _ _ => none
  | .ldw _ _ | .ldb _ _ | .stw _ _ | .stb _ _ | .push _ | .pop _ => none
  | .halt => none

/-- The fault check of the execute unit and the memory unit: the divisor is not 0, the data address is in range (R114, R241). At
most one of the two applies (R243). -/
def checkFault (s : State) (i : Instr) : Option FaultRecord :=
  if divisor s i = some 0#16 then some { cause := .divideByZero, info := s.instrWord }
  else
    match dataAccess s i with
    | none => none
    | some (.read a n) => if s.inRange a n then none else some { cause := .loadOutOfRange, info := a }
    | some (.write a n _) => if s.inRange a n then none else some { cause := .storeOutOfRange, info := a }

/-- The execute unit's result for the write port, from the two read ports and the data read: exact numbers, then the low 16 bits
(R13, R30, R160). -/
def aluResult (p q m : Word) : Instr → Option Word
  | .mov _ _ => some q
  | .movi _ imm => some (BitVec.ofNat 16 imm.toNat)
  | .cmp _ _ => some (if p.toNat < q.toNat then 0#16 else BitVec.ofNat 16 (p.toNat - q.toNat + 1))
  | .add _ _ => some (BitVec.ofNat 16 (p.toNat + q.toNat))
  | .addi _ imm => some (BitVec.ofNat 16 (p.toNat + imm.toNat))
  | .sub _ _ => some (BitVec.ofInt 16 ((p.toNat : Int) - (q.toNat : Int)))
  | .subi _ imm => some (BitVec.ofInt 16 ((p.toNat : Int) - (imm.toNat : Int)))
  | .mod _ _ => some (BitVec.ofNat 16 (p.toNat % q.toNat))
  | .modi _ imm => some (BitVec.ofNat 16 (p.toNat % imm.toNat))
  | .and _ _ => some (BitVec.ofNat 16 (p.toNat &&& q.toNat))
  | .or _ _ => some (BitVec.ofNat 16 (p.toNat ||| q.toNat))
  | .xor _ _ => some (BitVec.ofNat 16 (p.toNat ^^^ q.toNat))
  | .bsl _ _ => some (BitVec.ofNat 16 (p.toNat * 2 ^ q.toNat))
  | .bsr _ _ => some (BitVec.ofNat 16 (p.toNat / 2 ^ q.toNat))
  | .bsli _ imm => some (BitVec.ofNat 16 (p.toNat * 2 ^ imm.toNat))
  | .bsri _ imm => some (BitVec.ofNat 16 (p.toNat / 2 ^ imm.toNat))
  | .ldw _ _ => some m
  | .ldb _ _ => some m
  | .pop _ => some m
  | .je _ | .jn _ | .jg _ | .jl _ | .stw _ _ | .stb _ _ | .push _ | .halt => none

/-- The jump decision on read port 1, which carries `x[0]`: the number loaded into `pc` when the jump is taken (R30, R31, R142). -/
def jumpDecision (p : Word) : Instr → Option Word
  | .je imm => if p.toNat = 1 then some (BitVec.ofNat 16 imm.toNat) else none
  | .jn imm => if p.toNat = 1 then none else some (BitVec.ofNat 16 imm.toNat)
  | .jg imm => if 1 < p.toNat then some (BitVec.ofNat 16 imm.toNat) else none
  | .jl imm => if p.toNat = 0 ∨ 32768 ≤ p.toNat then some (BitVec.ofNat 16 imm.toNat) else none
  | .mov _ _ | .movi _ _ | .cmp _ _ | .add _ _ | .addi _ _ | .sub _ _ => none
  | .subi _ _ | .mod _ _ | .modi _ _ | .and _ _ | .or _ _ | .xor _ _ => none
  | .bsl _ _ | .bsr _ _ | .bsli _ _ | .bsri _ _ | .ldw _ _ | .ldb _ _ => none
  | .stw _ _ | .stb _ _ | .push _ | .pop _ | .halt => none

/-- The value the memory unit delivers to a load. -/
def loadedValue (s : State) (i : Instr) : Word :=
  match dataAccess s i with
  | some (.read a n) => (s.memRead a n).getD 0#16
  | some (.write _ _ _) => 0#16
  | none => 0#16

/-- (c) The data access of an instruction as events. -/
def dataEvents (s : State) (i : Instr) : List Event :=
  match dataAccess s i with
  | none => []
  | some (.read a n) => [.dataRead a n (loadedValue s i)]
  | some (.write a n v) => [.dataWrite a n v]

/-- (d) The register write as events. -/
def regEvents (s : State) (i : Instr) : List Event :=
  match writePort i, aluResult (s.readPort (readPort1 i)) (s.readPort (readPort2 i)) (loadedValue s i) i with
  | some r, some v => [.regWrite r v]
  | _, _ => []

/-- (e) The `pc` write as events. -/
def pcEvents (s : State) (i : Instr) : List Event :=
  match jumpDecision (s.readPort (readPort1 i)) i with
  | some t => [.pcWrite t]
  | none => []

/-- (f) The `halt` write as events. -/
def haltEvents (i : Instr) : List Event :=
  if i.op = .halt then [.haltWrite] else []

/-- The events of an instruction, stages 4 and 5 (R110, R114). -/
def instrEvents (s : State) (i : Instr) : List Event :=
  match checkFault s i with
  | some r => [.raise r.cause r.info]
  | none => .checksPassed :: (dataEvents s i ++ regEvents s i ++ pcEvents s i ++ haltEvents i ++ [.advance])

/-- The events of a step in `Running`: the fetch, then those of the instruction (R110, R114). -/
def fetchEvents (s : State) : List Event :=
  match s.fetch with
  | none => [.raise .fetchOutOfRange s.pc]
  | some w =>
    .fetchRead s.pc w ::
      match decode s.cfg.opnum w with
      | .error _ => [.raise .illegalInstruction w]
      | .ok i => instrEvents s i

/-- The events of a step; none in `Halted` and `Faulted` (R30, R111). -/
def stepEvents (s : State) : List Event :=
  match s.runState with
  | .running => fetchEvents s
  | .halted => []
  | .faulted _ => []

end Sys2Proof.Machine
end

