-- ==== Sys2Proof/Safety.lean ====
section
/-! DEFINITION. What counts as a good state and a good end of a run, and the terms the statements use: what an instruction changes and
what it leaves. -/

namespace Sys2Proof.Machine

/-! ## Runs -/

/-- `t` is reached from `s` by some number of steps (R111). -/
def Reaches (s t : State) : Prop :=
  ∃ k : Nat, Host.Core.run Sys2Proof.core k s = .next t

/-- A run from `s` ends normally in `t`: only `Halted` is a normal end (00_scope.md R7, R8). -/
def EndsWell (s t : State) : Prop :=
  Reaches s t ∧ t.runState = .halted

/-- A run from `s` goes wrong: it reaches a fault (60_exceptions.md R242). -/
def GoesWrong (s : State) : Prop :=
  ∃ t r, Reaches s t ∧ t.runState = .faulted r

/-! ## The invariant -/

/-- What holds of every state a core with legal parameters can be in. -/
structure State.Inv (s : State) : Prop where
  /-- The parameters obey R5. -/
  params : s.cfg.wf = true
  /-- Memory is in canonical form. -/
  canonical : s.mem.wf = true
  /-- Only the `MEM_SIZE` bytes that exist are listed (R24). -/
  inside : s.mem.within s.cfg.memSize = true
  /-- `sp` = 0 (R18, R22). -/
  slot : s.sp = 0#16
  /-- `Faulted` is not `Halted`: `halt` stays false (R242). -/
  exclusive : s.fault ≠ none → s.halt = false

/-! ## What changes and what does not -/

/-- Every register is unchanged. -/
def SameRegs (s t : State) : Prop :=
  ∀ r : RegIdx, t.reg r = s.reg r

/-- Every byte of memory is unchanged. -/
def SameMemory (s t : State) : Prop :=
  ∀ n : Nat, t.byteAt n = s.byteAt n

/-- Every byte of memory is unchanged outside the `k` bytes from address `a` on. -/
def SameMemoryBut (a k : Nat) (s t : State) : Prop :=
  ∀ n : Nat, n < a ∨ a + k ≤ n → t.byteAt n = s.byteAt n

/-- `sp`, the halt flag, the fault record and the parameters are unchanged. -/
structure SameControl (s t : State) : Prop where
  sp : t.sp = s.sp
  halt : t.halt = s.halt
  fault : t.fault = s.fault
  cfg : t.cfg = s.cfg

/-- `pc` has advanced by one instruction (R16). -/
def Advanced (s t : State) : Prop :=
  t.pc.toNat = (s.pc.toNat + 2) % 65536

/-- From `s` to `t`, register `d` receives the number `v`, `pc` advances and nothing else changes. -/
structure WritesReg (d : RegIdx) (v : Nat) (s t : State) : Prop where
  value : (t.reg d).toNat = v
  others : ∀ r, r ≠ d → t.reg r = s.reg r
  pc : Advanced s t
  memory : SameMemory s t
  control : SameControl s t

/-- From `s` to `t`, `pc` becomes the number `p` and nothing else changes. -/
structure WritesPc (p : Nat) (s t : State) : Prop where
  pc : t.pc.toNat = p
  regs : SameRegs s t
  memory : SameMemory s t
  control : SameControl s t

/-- From `s` to `t`, the two bytes at `a` receive the number `v`, the low byte first, `pc` advances and nothing else changes. -/
structure StoresWord (a v : Nat) (s t : State) : Prop where
  low : (t.byteAt a).toNat = v % 256
  high : (t.byteAt (a + 1)).toNat = v / 256
  memory : SameMemoryBut a 2 s t
  pc : Advanced s t
  regs : SameRegs s t
  control : SameControl s t

/-- From `s` to `t`, the byte at `a` receives the number `v`, `pc` advances and nothing else changes. -/
structure StoresByte (a v : Nat) (s t : State) : Prop where
  value : (t.byteAt a).toNat = v
  memory : SameMemoryBut a 1 s t
  pc : Advanced s t
  regs : SameRegs s t
  control : SameControl s t

/-- The state after a fault: the one before the step, but for the fault record (R242). -/
def State.Faulted (s : State) (f : Fault) (info : Word) : State :=
  { s with fault := some { cause := f, info := info } }

/-- `pc` after an instruction that does not fault, as the table of R16 gives it. -/
def pcAfter (s : State) : Instr → Nat
  | .je imm => if (s.reg 0#3).toNat = 1 then imm.toNat + 2 else (s.pc.toNat + 2) % 65536
  | .jn imm => if (s.reg 0#3).toNat ≠ 1 then imm.toNat + 2 else (s.pc.toNat + 2) % 65536
  | .jg imm => if (s.reg 0#3).toNat > 1 then imm.toNat + 2 else (s.pc.toNat + 2) % 65536
  | .jl imm => if (s.reg 0#3).toInt < 1 then imm.toNat + 2 else (s.pc.toNat + 2) % 65536
  | .mov _ _ | .movi _ _ | .cmp _ _ | .add _ _ | .addi _ _ | .sub _ _ | .subi _ _ | .mod _ _ => (s.pc.toNat + 2) % 65536
  | .modi _ _ | .and _ _ | .or _ _ | .xor _ _ | .bsl _ _ | .bsr _ _ | .bsli _ _ | .bsri _ _ => (s.pc.toNat + 2) % 65536
  | .ldw _ _ | .ldb _ _ | .stw _ _ | .stb _ _ | .push _ | .pop _ | .halt => (s.pc.toNat + 2) % 65536

/-- One of the four conditional jumps, with operand `imm`. -/
def IsJump (i : Instr) (imm : Imm11) : Prop :=
  i = .je imm ∨ i = .jn imm ∨ i = .jg imm ∨ i = .jl imm

/-- The rows of the fault table (60_exceptions.md R241): the step from `s` meets the fault `r`. -/
def FaultRow (s : State) (r : FaultRecord) : Prop :=
  (s.cfg.memSize ≤ s.pc.toNat + 1 ∧ r = { cause := .fetchOutOfRange, info := s.pc }) ∨
  ∃ w, s.fetch = some w ∧
    (((∀ k, s.cfg.opnum.num k ≠ fieldOpcode w) ∧ r = { cause := .illegalInstruction, info := w }) ∨
    ∃ i, decode s.cfg.opnum w = .ok i ∧
      ((∃ a b, i = .mod a b ∧ s.reg b = 0#16 ∧ r = { cause := .divideByZero, info := w }) ∨
      (∃ a, i = .modi a 0#8 ∧ r = { cause := .divideByZero, info := w }) ∨
      (∃ a b, i = .ldw a b ∧ s.cfg.memSize ≤ (s.reg b).toNat + 1 ∧ r = { cause := .loadOutOfRange, info := s.reg b }) ∨
      (∃ a, i = .pop a ∧ s.cfg.memSize ≤ s.sp.toNat + 1 ∧ r = { cause := .loadOutOfRange, info := s.sp }) ∨
      (∃ a b, i = .ldb a b ∧ s.cfg.memSize ≤ (s.reg b).toNat ∧ r = { cause := .loadOutOfRange, info := s.reg b }) ∨
      (∃ a b, i = .stw a b ∧ s.cfg.memSize ≤ (s.reg b).toNat + 1 ∧ r = { cause := .storeOutOfRange, info := s.reg b }) ∨
      (∃ imm, i = .push imm ∧ s.cfg.memSize ≤ s.sp.toNat + 1 ∧ r = { cause := .storeOutOfRange, info := s.sp }) ∨
      (∃ a b, i = .stb a b ∧ s.cfg.memSize ≤ (s.reg b).toNat ∧ r = { cause := .storeOutOfRange, info := s.reg b })))

/-! ## Encodings -/

/-- The line `mnemonic rA, rB` (R101). -/
def lineRR (k : Op) (a b : RegIdx) : List Char :=
  mnemonic k ++ ' ' :: regText a.toNat ++ ',' :: ' ' :: regText b.toNat

/-- The line `mnemonic rA, imm8`, the immediate in decimal (R99, R101). -/
def lineRI (k : Op) (a : RegIdx) (imm : Imm8) : List Char :=
  mnemonic k ++ ' ' :: regText a.toNat ++ ',' :: ' ' :: decimal imm.toNat

/-- Instruction `mk` has format RR, default number `n`, the word `OPNUM + 32*A + 256*B`, bits 15..11 ignored, and the line
`mnemonic rA, rB` (R73, R74, R101). -/
def CodedRR (k : Op) (n : Nat) (mk : RegIdx → RegIdx → Instr) : Prop :=
  (OpNum.default.num k).toNat = n ∧
  (∀ o : OpNum, o.injective = true → ∀ a b : RegIdx,
    (encode o (mk a b)).toNat = (o.num k).toNat + 32 * a.toNat + 256 * b.toNat ∧
    ∀ u : BitVec 5, decode o (u ++ b ++ a ++ o.num k) = .ok (mk a b)) ∧
  ∀ a b : RegIdx, assembleLine (lineRR k a b) = some (mk a b)

/-- Format RI: the word `OPNUM + 32*A + 256*imm8`, the line `mnemonic rA, imm8`. -/
def CodedRI (k : Op) (n : Nat) (mk : RegIdx → Imm8 → Instr) : Prop :=
  (OpNum.default.num k).toNat = n ∧
  (∀ o : OpNum, o.injective = true → ∀ (a : RegIdx) (imm : Imm8),
    (encode o (mk a imm)).toNat = (o.num k).toNat + 32 * a.toNat + 256 * imm.toNat ∧
    decode o (imm ++ a ++ o.num k) = .ok (mk a imm)) ∧
  ∀ (a : RegIdx) (imm : Imm8), assembleLine (lineRI k a imm) = some (mk a imm)

/-- The second spelling of an immediate instruction: the mnemonic of the register form `k` with a literal (R102). -/
def AlsoWritten (k : Op) (mk : RegIdx → Imm8 → Instr) : Prop :=
  ∀ (a : RegIdx) (imm : Imm8), assembleLine (lineRI k a imm) = some (mk a imm)

/-- Format R: the word `OPNUM + 32*A`, bits 15..8 ignored, the line `mnemonic rA`. -/
def CodedR (k : Op) (n : Nat) (mk : RegIdx → Instr) : Prop :=
  (OpNum.default.num k).toNat = n ∧
  (∀ o : OpNum, o.injective = true → ∀ a : RegIdx,
    (encode o (mk a)).toNat = (o.num k).toNat + 32 * a.toNat ∧
    ∀ u : BitVec 8, decode o (u ++ a ++ o.num k) = .ok (mk a)) ∧
  ∀ a : RegIdx, assembleLine (mnemonic k ++ ' ' :: regText a.toNat) = some (mk a)

/-- Format J: the word `OPNUM + 32*imm11`, the line `mnemonic imm11`. -/
def CodedJ (k : Op) (n : Nat) (mk : Imm11 → Instr) : Prop :=
  (OpNum.default.num k).toNat = n ∧
  (∀ o : OpNum, o.injective = true → ∀ imm : Imm11,
    (encode o (mk imm)).toNat = (o.num k).toNat + 32 * imm.toNat ∧
    decode o (imm ++ o.num k) = .ok (mk imm)) ∧
  ∀ imm : Imm11, assembleLine (mnemonic k ++ ' ' :: decimal imm.toNat) = some (mk imm)

/-- Format Z: the word `OPNUM`, bits 15..5 ignored, the line `mnemonic`. -/
def CodedZ (k : Op) (n : Nat) (i : Instr) : Prop :=
  (OpNum.default.num k).toNat = n ∧
  (∀ o : OpNum, o.injective = true →
    (encode o i).toNat = (o.num k).toNat ∧
    ∀ u : BitVec 11, decode o (u ++ o.num k) = .ok i) ∧
  assembleLine (mnemonic k) = some i

end Sys2Proof.Machine
end

