-- ==== Sys2Proof/Certificates/Slice0/Obligations.lean ====
section
/-! DEFINITION. The statements about the HXR model. -/

open Sys2Proof Sys2Proof.Machine

/-! ## The step -/

/-- R110: when the two bytes at `pc` decode to an instruction, the step is that instruction. Every instruction is well formed
(log 28); the advance is part of `exec` (log 8). -/
def Obligations.StepRunsDecodedInstruction : Prop :=
  ∀ (s : State) (w : Word) (i : Instr),
    s.runState = .running → s.pc.toNat + 1 < s.cfg.memSize →
    w.toNat = (s.byteAt s.pc.toNat).toNat + 256 * (s.byteAt (s.pc.toNat + 1)).toNat →
    decode s.cfg.opnum w = .ok i →
    i.wellFormed = true ∧ step s = exec i s

/-- R110, stages 1 to 4: the fetch fault, the illegal instruction, or the instruction of the opcode with the word's fields. -/
def Obligations.StepFollowsTheStages : Prop :=
  ∀ s : State, s.runState = .running → s.cfg.opnum.injective = true →
    (s.cfg.memSize ≤ s.pc.toNat + 1 → step s = .next (s.Faulted .fetchOutOfRange s.pc)) ∧
    (s.pc.toNat + 1 < s.cfg.memSize →
      ∃ w : Word, w.toNat = (s.byteAt s.pc.toNat).toNat + 256 * (s.byteAt (s.pc.toNat + 1)).toNat ∧
        ((∀ k, s.cfg.opnum.num k ≠ fieldOpcode w) → step s = .next (s.Faulted .illegalInstruction w)) ∧
        (∀ k, s.cfg.opnum.num k = fieldOpcode w → step s = exec (instrOf k w) s))

/-- U14, R115: from every state the step answers a next state; nothing is refused. -/
def Obligations.StepAlwaysAnswersNext : Prop :=
  ∀ s : State, ∃ t, step s = .next t

/-- R7, R111 and the vector E14: nothing leaves `Halted` or `Faulted`. That a step attempted there answers the same state is the
model's choice (log 6). -/
def Obligations.StoppedStatesNeverChange : Prop :=
  ∀ (s : State) (k : Nat), s.runState ≠ .running → Host.Core.run Sys2Proof.core k s = .next s

/-! ## The codec -/

/-- R86: decoding the encoded word returns the instruction, and encoding the decoded instruction returns the word with its ignored
bits cleared, for every numbering. -/
def Obligations.DecodeAndEncodeAgree : Prop :=
  ∀ o : OpNum, o.injective = true →
    (∀ i : Instr, decode o (encode o i) = .ok i) ∧
    (∀ (w : Word) (i : Instr), decode o w = .ok i → encode o i = clearIgnored i.op.format w)

/-- R75: words that differ only in the bits their format ignores decode to the same instruction, and the canonical encoding has
those bits 0. -/
def Obligations.IgnoredBitsAreNotExamined : Prop :=
  ∀ o : OpNum, o.injective = true →
    (∀ (w v : Word) (i : Instr), decode o w = .ok i → clearIgnored i.op.format v = clearIgnored i.op.format w →
      decode o v = .ok i) ∧
    (∀ i : Instr, clearIgnored i.op.format (encode o i) = encode o i)

/-- R82: the instruction of a word, and the one a step executes for it, is the one whose number equals the word under the mask
0x001F. -/
def Obligations.DispatchIsByOpcodeAlone : Prop :=
  (∀ o : OpNum, o.injective = true → ∀ (w : Word) (k : Op),
    (w &&& 0x001F#16).toNat = (o.num k).toNat ↔ ∃ i, decode o w = .ok i ∧ i.op = k) ∧
  (∀ (s : State) (w : Word) (k : Op), s.cfg.opnum.injective = true → s.runState = .running → s.fetch = some w →
    (w &&& 0x001F#16).toNat = (s.cfg.opnum.num k).toNat → ∃ i, i.op = k ∧ step s = exec i s)

/-- R83: a word whose opcode no instruction has faults, with the word as information and nothing else changed; with the default
numbering these are the words with opcode 27 to 31. -/
def Obligations.UnassignedOpcodesAreIllegal : Prop :=
  (∀ (s : State) (w : Word), s.runState = .running → s.fetch = some w →
    (∀ k, s.cfg.opnum.num k ≠ fieldOpcode w) → step s = .next (s.Faulted .illegalInstruction w)) ∧
  (∀ w : Word, decode OpNum.default w = .error (.illegalInstruction w) ↔ 27 ≤ w.toNat % 32)

/-- Words written out from the encoding table of 95_test_vectors.md 2.2, one of each family, decode to the instruction they stand
for. -/
def Obligations.SampleWordsDecode : Prop :=
  decode OpNum.default 0x0220#16 = .ok (.mov 1 2) ∧
  decode OpNum.default 0xC861#16 = .ok (.movi 3 200) ∧
  decode OpNum.default 0x0222#16 = .ok (.cmp 1 2) ∧
  decode OpNum.default 0x21C5#16 = .ok (.jg 270) ∧
  decode OpNum.default 0x0A2C#16 = .ok (.modi 1 10) ∧
  decode OpNum.default 0xABCD#16 = .ok (.and 6 3) ∧
  decode OpNum.default 0x0832#16 = .ok (.bsli 1 8) ∧
  decode OpNum.default 0x0236#16 = .ok (.stw 1 2) ∧
  decode OpNum.default 0x0558#16 = .ok (.push 42) ∧
  decode OpNum.default 0x0099#16 = .ok (.pop 4) ∧
  decode OpNum.default 0x001A#16 = .ok .halt ∧
  decode OpNum.default 0x07FF#16 = .error (.illegalInstruction 0x07FF#16)

/-- R95 to R101, R104: the line of an instruction, its field values in decimal, assembles to that instruction, and the text of a list
of instructions to that list and its image. -/
def Obligations.AssemblyRoundTrip : Prop :=
  (∀ i : Instr, assembleLine (asmText i) = some i) ∧
  (∀ is : List Instr, assemble (asmProgram is) = some is) ∧
  (∀ (o : OpNum) (is : List Instr), assembleImage o (asmProgram is) = some (image o is))

/-! ## Reset and the invariant -/

/-- R26: the value of every piece of state after reset, for every parameters and every image that fits. -/
def Obligations.ResetLeavesTheStatedValues : Prop :=
  ∀ (c : Config) (rom : List Byte), c.wf = true → c.imageFits rom = true →
    (∀ r, (State.resetWith c rom).reg r = 0#16) ∧
    (State.resetWith c rom).pc.toNat = c.romBase ∧
    (State.resetWith c rom).sp = 0#16 ∧
    (State.resetWith c rom).halt = false ∧
    (State.resetWith c rom).runState = .running ∧
    (State.resetWith c rom).fault = none ∧
    (∀ (i : Nat) (h : i < rom.length), (State.resetWith c rom).byteAt (c.romBase + i) = rom[i]) ∧
    (∀ n, n < c.romBase ∨ c.romBase + rom.length ≤ n → (State.resetWith c rom).byteAt n = 0#8)

/-- R282: a core starts from an image that fits, and from no other. The refusals' names are the model's (log 11). -/
def Obligations.LaunchTakesOnlyFittingImages : Prop :=
  ∀ (c : Config) (rom : List Byte), c.wf = true →
    (c.romBase + rom.length ≤ c.memSize → State.launch c rom = .next (State.resetWith c rom)) ∧
    (c.memSize < c.romBase + rom.length → State.launch c rom = .refused .imageDoesNotFit)

/-- The state after reset meets the invariant. `State.reset` has the parameters `T0` and an empty image, the model's choice (logs 2
and 3). -/
def Obligations.ResetMeetsTheInvariant : Prop :=
  State.reset.Inv

/-- Reset meets the invariant for every legal parameters and every image that fits. -/
def Obligations.ResetWithMeetsTheInvariant : Prop :=
  ∀ (c : Config) (rom : List Byte), c.wf = true → c.imageFits rom = true → (State.resetWith c rom).Inv

/-- Every step keeps the invariant: legal parameters, canonical memory inside the address space, `sp` = 0, never halted and
faulted. -/
def Obligations.StepKeepsTheInvariant : Prop :=
  ∀ s t : State, s.Inv → step s = .next t → t.Inv

/-! ## Memory -/

/-- R48: what the little-endian layout implies for accesses of mixed width. -/
def Obligations.MixedWidthAccessesAgree : Prop :=
  (∀ (s t : State) (a v : Word), s.cfg.memSize ≤ 65536 → s.memWrite a .word v = some t →
    t.memRead a .word = some v ∧
    (∃ lo, t.memRead a .byte = some lo ∧ lo.toNat = v.toNat % 256) ∧
    (∃ hi, t.memRead (a + 1#16) .byte = some hi ∧ hi.toNat = v.toNat / 256)) ∧
  (∀ (s t u : State) (a b0 b1 : Word), a.toNat + 1 < 65536 → s.memWrite a .byte b0 = some t →
    t.memWrite (a + 1#16) .byte b1 = some u →
    ∃ v, u.memRead a .word = some v ∧ v.toNat = b0.toNat % 256 + 256 * (b1.toNat % 256)) ∧
  (∀ w : Word, (wordBytes w).map BitVec.toNat = [w.toNat % 256, w.toNat / 256])

/-- Two memories in canonical form with the same contents are the same list: the model's representation loses nothing and adds
nothing (R24, R53). -/
def Obligations.CanonicalMemoriesWithEqualBytesAreEqual : Prop :=
  ∀ m n : Memory, m.wf = true → n.wf = true → (∀ a, m.read a = n.read a) → m = n

/-- R56: a store is seen by the very next fetch from that address. -/
def Obligations.StoresAreSeenByTheNextFetch : Prop :=
  (∀ (s t : State) (a b : RegIdx), exec (.stw a b) s = .next t → (s.reg b).toNat + 1 < s.cfg.memSize →
    (t.setPc (s.reg b)).fetch = some (s.reg a)) ∧
  (∀ (s t : State) (a b : RegIdx), exec (.stb a b) s = .next t → (s.reg b).toNat + 1 < s.cfg.memSize →
    ∃ w, (t.setPc (s.reg b)).fetch = some w ∧
      w.toNat = (s.reg a).toNat % 256 + 256 * (s.byteAt ((s.reg b).toNat + 1)).toNat) ∧
  (∀ (s t : State) (imm : Imm11), exec (.push imm) s = .next t → s.sp.toNat + 1 < s.cfg.memSize →
    ∃ w, (t.setPc s.sp).fetch = some w ∧ w.toNat = imm.toNat)

/-! ## Registers, pointers, the halt flag -/

/-- R12: a register that is not on the write port keeps its value, and a register that is on no read port has no influence: two
states that differ in it alone go on to states that differ in it alone, and in nothing once it has been written. -/
def Obligations.RegistersReadAndWrittenAreThoseOfThePorts : Prop :=
  ∀ (i : Instr) (s t : State) (r : RegIdx), exec i s = .next t →
    (writePort i ≠ some r → t.reg r = s.reg r) ∧
    (readPort1 i ≠ some r → readPort2 i ≠ some r → ∀ v : Word,
      exec i (s.setReg r v) = .next (t.setReg r v) ∨ (writePort i = some r ∧ exec i (s.setReg r v) = .next t))

/-- R116: an instruction changes the register on its write port, the bytes of its one data write (the address computed by
`dataAccess`, as the instruction computes it), `halt` when it is HALT, `pc` by the advance or a jump, and nothing else; `sp` in
no case. -/
def Obligations.InstructionsChangeOnlyWhatTheirRulesAssign : Prop :=
  ∀ (i : Instr) (s t : State), exec i s = .next t →
    (∀ r, writePort i ≠ some r → t.reg r = s.reg r) ∧
    (∀ n : Nat, (∀ a w v, dataAccess s i = some (.write a w v) → n < a.toNat ∨ a.toNat + w.bytes ≤ n) →
      t.byteAt n = s.byteAt n) ∧
    t.sp = s.sp ∧ t.cfg = s.cfg ∧
    (i ≠ .halt → t.halt = s.halt) ∧
    (s.fault = none → t.fault = none → (∀ imm, ¬ IsJump i imm) → Advanced s t)

/-- R19: false at reset; HALT sets the halt flag and nothing else does; nothing clears it; no instruction reads it; in a legal state
the core is `Halted` exactly when it is set. -/
def Obligations.HaltFlagIsMonotonic : Prop :=
  (∀ (c : Config) (rom : List Byte), (State.resetWith c rom).halt = false) ∧
  (∀ s t : State, exec .halt s = .next t → t.halt = true) ∧
  (∀ s t : State, step s = .next t →
    (s.halt = true → t.halt = true) ∧
    (s.halt = false → t.halt = true →
      s.runState = .running ∧ ∃ w, s.fetch = some w ∧ decode s.cfg.opnum w = .ok .halt)) ∧
  (∀ (i : Instr) (s t : State), exec i s = .next t → exec i s.setHalt = .next t.setHalt) ∧
  (∀ s : State, s.Inv → (s.runState = .halted ↔ s.halt = true))

/-- R16: `pc` after a step, by the table, and unchanged when the step faults. -/
def Obligations.PcAfterAStepFollowsTheTable : Prop :=
  ∀ s t : State, s.runState = .running → step s = .next t →
    (∀ r, t.fault = some r → t.pc = s.pc) ∧
    (t.fault = none →
      ∃ w i, s.fetch = some w ∧ decode s.cfg.opnum w = .ok i ∧ t.pc.toNat = pcAfter s i ∧
        (i = .halt → t.runState = .halted))

/-- R43: a step that does not go on at the next instruction goes on at 2 to 2049. -/
def Obligations.JumpsReachOnlyLowAddresses : Prop :=
  ∀ s t : State, s.runState = .running → step s = .next t → t.fault = none →
    Advanced s t ∨ (2 ≤ t.pc.toNat ∧ t.pc.toNat ≤ 2049)

/-- R142: a jump to an address with no instruction does not fault; the next step's fetch does. -/
def Obligations.JumpOutOfRangeFaultsAtTheNextFetch : Prop :=
  ∀ (s : State) (i : Instr) (imm : Imm11), IsJump i imm → s.runState = .running →
    pcAfter s i = imm.toNat + 2 → s.cfg.memSize ≤ imm.toNat + 3 →
    ∃ t, exec i s = .next t ∧ t.runState = .running ∧ t.pc.toNat = imm.toNat + 2 ∧
      step t = .next (t.Faulted .fetchOutOfRange t.pc)

/-! ## Faults -/

/-- R241: a step from `Running` faults exactly in the rows of the table, with the information they give, with `pc` left at the faulting
instruction; the codes are 1 to 5, and 0 means no fault. -/
def Obligations.FaultsAreExactlyThoseOfTheTable : Prop :=
  (∀ s t : State, s.runState = .running → step s = .next t →
    (∀ r, t.fault = some r ↔ FaultRow s r) ∧ (t.fault ≠ none → t.pc = s.pc)) ∧
  (∀ s : State, s.hostView.faultCause = 0#3 ↔ s.fault = none) ∧
  [Fault.illegalInstruction, .divideByZero, .fetchOutOfRange, .loadOutOfRange, .storeOutOfRange].map
    (fun f => (faultCode f).toNat) = [1, 2, 3, 4, 5]

/-- R242: a step that faults changes nothing but the run state; `halt` stays false; no run leaves that state. -/
def Obligations.FaultsArePrecise : Prop :=
  ∀ (s t : State) (r : FaultRecord), s.runState = .running → step s = .next t → t.fault = some r →
    t = s.Faulted r.cause r.info ∧ t.runState = .faulted r ∧ t.halt = false ∧
    ∀ k u, Host.Core.run Sys2Proof.core k t = .next u → u = t

/-! ## The block structure -/

/-- R30 to R32: the ports, execute unit, memory unit and pointer unit of the datapath, one event after the other, do what the step
does. The form of the events is the model's (log 25). -/
def Obligations.DatapathAgreesWithStep : Prop :=
  ∀ s : State, step s = .next (s.replay (stepEvents s))

/-- R114: the events of a step come in the order (a) to (g), at most one of each. The form of the events is the model's (log 25). -/
def Obligations.EventsOfAStepAreOrdered : Prop :=
  ∀ s : State, (stepEvents s).Pairwise fun e f => eventPlace e < eventPlace f

/-! ## The instructions -/

/-- R130, R131: MOV and MOVI. -/
def Obligations.MoveInstructions : Prop :=
  CodedRR .mov 0 .mov ∧ CodedRI .movi 1 .movi ∧ AlsoWritten .mov .movi ∧
  (∀ (a b : RegIdx) (s : State), ∃ t, exec (.mov a b) s = .next t ∧ WritesReg a (s.reg b).toNat s t) ∧
  (∀ (a : RegIdx) (imm : Imm8) (s : State), ∃ t, exec (.movi a imm) s = .next t ∧ WritesReg a imm.toNat s t)

/-- R141: CMP. -/
def Obligations.CompareWritesTheCode : Prop :=
  CodedRR .cmp 2 .cmp ∧
  ∀ (a b : RegIdx) (s : State), ∃ t, exec (.cmp a b) s = .next t ∧
    WritesReg 0#3
      (if (s.reg a).toNat < (s.reg b).toNat then 0 else ((s.reg a).toNat - (s.reg b).toNat + 1) % 65536) s t

/-- R143, R144: JE and JN. -/
def Obligations.JumpsOnEquality : Prop :=
  CodedJ .je 3 .je ∧ CodedJ .jn 4 .jn ∧
  (∀ (imm : Imm11) (s : State), ∃ t, exec (.je imm) s = .next t ∧
    WritesPc (if (s.reg 0#3).toNat = 1 then imm.toNat + 2 else (s.pc.toNat + 2) % 65536) s t) ∧
  (∀ (imm : Imm11) (s : State), ∃ t, exec (.jn imm) s = .next t ∧
    WritesPc (if (s.reg 0#3).toNat = 1 then (s.pc.toNat + 2) % 65536 else imm.toNat + 2) s t)

/-- R145, R146: JG reads `x[0]` unsigned, JL as a 16-bit two's-complement number. -/
def Obligations.JumpsOnOrder : Prop :=
  CodedJ .jg 5 .jg ∧ CodedJ .jl 6 .jl ∧
  (∀ (imm : Imm11) (s : State), ∃ t, exec (.jg imm) s = .next t ∧
    WritesPc (if 1 < (s.reg 0#3).toNat then imm.toNat + 2 else (s.pc.toNat + 2) % 65536) s t) ∧
  (∀ (imm : Imm11) (s : State), ∃ t, exec (.jl imm) s = .next t ∧
    WritesPc (if (s.reg 0#3).toNat = 0 ∨ 32768 ≤ (s.reg 0#3).toNat then imm.toNat + 2
      else (s.pc.toNat + 2) % 65536) s t)

/-- R295: after CMP, JE is taken exactly when the operands are equal, JG when the first is greater but for the pair (65535, 0), JL
when it is less or exceeds the second by 32767 or more. -/
def Obligations.CompareCodeMisreportsInTwoRanges : Prop :=
  ∀ (a b : RegIdx) (s t : State), exec (.cmp a b) s = .next t →
    (condE (t.reg 0#3) = true ↔ (s.reg a).toNat = (s.reg b).toNat) ∧
    (condN (t.reg 0#3) = true ↔ (s.reg a).toNat ≠ (s.reg b).toNat) ∧
    (condG (t.reg 0#3) = true ↔
      (s.reg b).toNat < (s.reg a).toNat ∧ ¬ ((s.reg a).toNat = 65535 ∧ (s.reg b).toNat = 0)) ∧
    (condL (t.reg 0#3) = true ↔
      (s.reg a).toNat < (s.reg b).toNat ∨ (s.reg b).toNat + 32767 ≤ (s.reg a).toNat)

/-- R161, R162: ADD and ADDI, modulo 65536. -/
def Obligations.AdditionWraps : Prop :=
  CodedRR .add 7 .add ∧ CodedRI .addi 8 .addi ∧ AlsoWritten .add .addi ∧
  (∀ (a b : RegIdx) (s : State), ∃ t, exec (.add a b) s = .next t ∧
    WritesReg a (((s.reg a).toNat + (s.reg b).toNat) % 65536) s t) ∧
  (∀ (a : RegIdx) (imm : Imm8) (s : State), ∃ t, exec (.addi a imm) s = .next t ∧
    WritesReg a (((s.reg a).toNat + imm.toNat) % 65536) s t)

/-- R163, R164: SUB and SUBI, modulo 65536. -/
def Obligations.SubtractionWraps : Prop :=
  CodedRR .sub 9 .sub ∧ CodedRI .subi 10 .subi ∧ AlsoWritten .sub .subi ∧
  (∀ (a b : RegIdx) (s : State), ∃ t, exec (.sub a b) s = .next t ∧
    WritesReg a (((s.reg a).toNat + 65536 - (s.reg b).toNat) % 65536) s t) ∧
  (∀ (a : RegIdx) (imm : Imm8) (s : State), ∃ t, exec (.subi a imm) s = .next t ∧
    WritesReg a (((s.reg a).toNat + 65536 - imm.toNat) % 65536) s t)

/-- R165, R166: MOD and MODI; a divisor of 0 faults with the instruction word. -/
def Obligations.RemainderOrDivideByZero : Prop :=
  CodedRR .mod 11 .mod ∧ CodedRI .modi 12 .modi ∧ AlsoWritten .mod .modi ∧
  (∀ (a b : RegIdx) (s : State), s.reg b ≠ 0#16 → ∃ t, exec (.mod a b) s = .next t ∧
    WritesReg a ((s.reg a).toNat % (s.reg b).toNat) s t ∧ (t.reg a).toNat < (s.reg b).toNat) ∧
  (∀ (a b : RegIdx) (w : Word) (s : State), s.runState = .running → s.fetch = some w →
    decode s.cfg.opnum w = .ok (.mod a b) → s.reg b = 0#16 → step s = .next (s.Faulted .divideByZero w)) ∧
  (∀ (a : RegIdx) (imm : Imm8) (s : State), imm ≠ 0#8 → ∃ t, exec (.modi a imm) s = .next t ∧
    WritesReg a ((s.reg a).toNat % imm.toNat) s t ∧ (t.reg a).toNat < imm.toNat) ∧
  (∀ (a : RegIdx) (w : Word) (s : State), s.runState = .running → s.fetch = some w →
    decode s.cfg.opnum w = .ok (.modi a 0#8) → step s = .next (s.Faulted .divideByZero w))

/-- R181, R182, R183: AND, OR and XOR, bit by bit. -/
def Obligations.LogicIsBitwise : Prop :=
  CodedRR .and 13 .and ∧ CodedRR .or 14 .or ∧ CodedRR .xor 15 .xor ∧
  (∀ (a b : RegIdx) (s : State), ∃ t, exec (.and a b) s = .next t ∧
    WritesReg a (t.reg a).toNat s t ∧
    ∀ n, (t.reg a).getLsbD n = ((s.reg a).getLsbD n && (s.reg b).getLsbD n)) ∧
  (∀ (a b : RegIdx) (s : State), ∃ t, exec (.or a b) s = .next t ∧
    WritesReg a (t.reg a).toNat s t ∧
    ∀ n, (t.reg a).getLsbD n = ((s.reg a).getLsbD n || (s.reg b).getLsbD n)) ∧
  (∀ (a b : RegIdx) (s : State), ∃ t, exec (.xor a b) s = .next t ∧
    WritesReg a (t.reg a).toNat s t ∧
    ∀ n, (t.reg a).getLsbD n = ((s.reg a).getLsbD n != (s.reg b).getLsbD n))

/-- R185, R187: BSL and BSLI; every amount of 16 or more gives 0. -/
def Obligations.LeftShifts : Prop :=
  CodedRR .bsl 16 .bsl ∧ CodedRI .bsli 18 .bsli ∧
  (∀ (a b : RegIdx) (s : State), ∃ t, exec (.bsl a b) s = .next t ∧
    WritesReg a (if 16 ≤ (s.reg b).toNat then 0 else (s.reg a).toNat * 2 ^ (s.reg b).toNat % 65536) s t) ∧
  (∀ (a : RegIdx) (imm : Imm8) (s : State), ∃ t, exec (.bsli a imm) s = .next t ∧
    WritesReg a (if 16 ≤ imm.toNat then 0 else (s.reg a).toNat * 2 ^ imm.toNat % 65536) s t)

/-- R186, R188: BSR and BSRI, logical; every amount of 16 or more gives 0. -/
def Obligations.RightShifts : Prop :=
  CodedRR .bsr 17 .bsr ∧ CodedRI .bsri 19 .bsri ∧
  (∀ (a b : RegIdx) (s : State), ∃ t, exec (.bsr a b) s = .next t ∧
    WritesReg a (if 16 ≤ (s.reg b).toNat then 0 else (s.reg a).toNat / 2 ^ (s.reg b).toNat) s t) ∧
  (∀ (a : RegIdx) (imm : Imm8) (s : State), ∃ t, exec (.bsri a imm) s = .next t ∧
    WritesReg a (if 16 ≤ imm.toNat then 0 else (s.reg a).toNat / 2 ^ imm.toNat) s t)

/-- R201, R202: LDW and LDB, little-endian and zero-extended, or `LoadOutOfRange`. -/
def Obligations.LoadsReadMemory : Prop :=
  CodedRR .ldw 20 .ldw ∧ CodedRR .ldb 21 .ldb ∧
  (∀ (a b : RegIdx) (s : State),
    ((s.reg b).toNat + 1 < s.cfg.memSize → ∃ t, exec (.ldw a b) s = .next t ∧
      WritesReg a ((s.byteAt (s.reg b).toNat).toNat + 256 * (s.byteAt ((s.reg b).toNat + 1)).toNat) s t) ∧
    (s.cfg.memSize ≤ (s.reg b).toNat + 1 → exec (.ldw a b) s = .next (s.Faulted .loadOutOfRange (s.reg b)))) ∧
  (∀ (a b : RegIdx) (s : State),
    ((s.reg b).toNat < s.cfg.memSize → ∃ t, exec (.ldb a b) s = .next t ∧
      WritesReg a (s.byteAt (s.reg b).toNat).toNat s t) ∧
    (s.cfg.memSize ≤ (s.reg b).toNat → exec (.ldb a b) s = .next (s.Faulted .loadOutOfRange (s.reg b))))

/-- R203, R204: STW and STB at the address in `x[B]`, or `StoreOutOfRange` with nothing written. -/
def Obligations.StoresWriteMemory : Prop :=
  CodedRR .stw 22 .stw ∧ CodedRR .stb 23 .stb ∧
  (∀ (a b : RegIdx) (s : State),
    ((s.reg b).toNat + 1 < s.cfg.memSize → ∃ t, exec (.stw a b) s = .next t ∧
      StoresWord (s.reg b).toNat (s.reg a).toNat s t) ∧
    (s.cfg.memSize ≤ (s.reg b).toNat + 1 → exec (.stw a b) s = .next (s.Faulted .storeOutOfRange (s.reg b)))) ∧
  (∀ (a b : RegIdx) (s : State),
    ((s.reg b).toNat < s.cfg.memSize → ∃ t, exec (.stb a b) s = .next t ∧
      StoresByte (s.reg b).toNat ((s.reg a).toNat % 256) s t) ∧
    (s.cfg.memSize ≤ (s.reg b).toNat → exec (.stb a b) s = .next (s.Faulted .storeOutOfRange (s.reg b))))

/-- R221: PUSH writes its constant to the two bytes at `sp` and leaves `sp`. -/
def Obligations.PushWritesTheSlot : Prop :=
  CodedJ .push 24 .push ∧
  ∀ (imm : Imm11) (s : State),
    (s.sp.toNat + 1 < s.cfg.memSize → ∃ t, exec (.push imm) s = .next t ∧ StoresWord s.sp.toNat imm.toNat s t) ∧
    (s.cfg.memSize ≤ s.sp.toNat + 1 → exec (.push imm) s = .next (s.Faulted .storeOutOfRange s.sp))

/-- R222: POP reads the two bytes at `sp` and leaves `sp` and memory. -/
def Obligations.PopReadsTheSlot : Prop :=
  CodedR .pop 25 .pop ∧
  ∀ (a : RegIdx) (s : State),
    (s.sp.toNat + 1 < s.cfg.memSize → ∃ t, exec (.pop a) s = .next t ∧
      WritesReg a ((s.byteAt s.sp.toNat).toNat + 256 * (s.byteAt (s.sp.toNat + 1)).toNat) s t) ∧
    (s.cfg.memSize ≤ s.sp.toNat + 1 → exec (.pop a) s = .next (s.Faulted .loadOutOfRange s.sp))

/-- R220: two PUSHes and two POPs; the second PUSH overwrites the first, both POPs return it, `sp` never moves. -/
def Obligations.PushAndPopShareOneSlot : Prop :=
  ∀ (s : State) (m n : Imm11) (a b : RegIdx), s.sp.toNat + 1 < s.cfg.memSize →
    ∃ t u v w, exec (.push m) s = .next t ∧ exec (.push n) t = .next u ∧ exec (.pop a) u = .next v ∧
      exec (.pop b) v = .next w ∧ (v.reg a).toNat = n.toNat ∧ (w.reg b).toNat = n.toNat ∧
      w.sp = s.sp ∧ SameMemoryBut s.sp.toNat 2 s w

/-- R230: HALT sets the halt flag and advances; nothing else changes, and a running core is then `Halted` for good. -/
def Obligations.HaltStopsTheCore : Prop :=
  CodedZ .halt 26 .halt ∧
  ∀ s : State, ∃ t, exec .halt s = .next t ∧ t.halt = true ∧ Advanced s t ∧ SameRegs s t ∧ SameMemory s t ∧
    t.sp = s.sp ∧ t.fault = s.fault ∧ t.cfg = s.cfg ∧
    (s.runState = .running → t.runState = .halted ∧ ∀ k u, Host.Core.run Sys2Proof.core k t = .next u → u = t)

/-! ## Literals in the assembly notation -/

/-- R98, R99: a literal is the number of its digits, which end at the first character that is no digit, negated after a `-`; whatever
follows it on the line of an instruction with an immediate, in either spelling, changes nothing. -/
def Obligations.LiteralsEndAtTheFirstNonDigit : Prop :=
  (∀ ds rest : List Char, ds ≠ [] → (∀ c ∈ ds, isDigit c = true) → (∀ c ∈ rest.head?, isDigit c = false) →
    parseLit (ds ++ rest) = some (ds.foldl (fun (n : Int) c => 10 * n + ((c.toNat : Int) - 48)) 0) ∧
    parseLit ('-' :: (ds ++ rest)) = some (-(ds.foldl (fun (n : Int) c => 10 * n + ((c.toNat : Int) - 48)) 0))) ∧
  (∀ (k l : Op) (a : RegIdx) (imm : Imm8) (c : Char) (rest : List Char),
    (k.format = .ri ∧ l = k) ∨ literalForm k = some l → isDigit c = false →
      ∃ i, assembleLine (lineRI k a imm ++ c :: rest) = some i ∧ i.op = l ∧
        i.fields = { a := a.toNat, imm8 := imm.toNat })
end

