-- ==== Sys2Proof/Laws/Asm.lean ====
section
/-! SUPPORT. What the readers of the assembly notation do, one character at a time. -/

namespace Sys2Proof.Machine

@[simp] theorem parseDigits_nil (n : Nat) : parseDigits n [] = n := rfl

theorem parseDigits_digit {c : Char} (h : isDigit c = true) (n : Nat) (cs : List Char) :
    parseDigits n (c :: cs) = parseDigits (n * 10 + (c.toNat - 48)) cs := by
  simp [parseDigits, h]

/-- Reading stops at a character that is no digit (R98). -/
theorem parseDigits_stop {c : Char} (h : isDigit c = false) (n : Nat) (cs : List Char) : parseDigits n (c :: cs) = n := by
  simp [parseDigits, h]

@[simp] theorem parseNat_nil : parseNat [] = none := rfl

theorem parseNat_digit {c : Char} (h : isDigit c = true) (cs : List Char) :
    parseNat (c :: cs) = some (parseDigits (c.toNat - 48) cs) := by
  simp [parseNat, h, parseDigits]

theorem parseNat_stop {c : Char} (h : isDigit c = false) (cs : List Char) : parseNat (c :: cs) = none := by
  simp [parseNat, h]

theorem parseLit_minus (cs : List Char) : parseLit ('-' :: cs) = (parseNat cs).map fun (n : Nat) => -(n : Int) := by
  simp [parseLit]

/-- A literal that begins with a digit has no sign. -/
theorem parseLit_digit {c : Char} (h : isDigit c = true) (cs : List Char) :
    parseLit (c :: cs) = (parseNat (c :: cs)).map fun (n : Nat) => (n : Int) := by
  have hc : c ≠ '-' := by
    rintro rfl
    exact absurd h (by decide)
  simp [parseLit, hc]

end Sys2Proof.Machine
end

