-- ==== Sys2Proof/Laws/Codec.lean ====
section
/-! SUPPORT. The decoder's fields of a word laid out as 30_encoding.md R71 lays it out, and the encoder's words as such layouts. -/

namespace Sys2Proof.Laws

/-! ## Fields as numbers (R72) -/

theorem toNat_fieldOpcode (w : Word) : (fieldOpcode w).toNat = w.toNat % 32 := by
  simp [fieldOpcode, BitVec.extractLsb'_toNat]

theorem toNat_fieldA (w : Word) : (fieldA w).toNat = w.toNat / 32 % 8 := by
  simp [fieldA, BitVec.extractLsb'_toNat, Nat.shiftRight_eq_div_pow]

theorem toNat_fieldB (w : Word) : (fieldB w).toNat = w.toNat / 256 % 8 := by
  simp [fieldB, BitVec.extractLsb'_toNat, Nat.shiftRight_eq_div_pow]

theorem toNat_fieldImm8 (w : Word) : (fieldImm8 w).toNat = w.toNat / 256 := by
  have := w.isLt
  simp only [fieldImm8, BitVec.extractLsb'_toNat, Nat.shiftRight_eq_div_pow]
  omega

theorem toNat_fieldImm11 (w : Word) : (fieldImm11 w).toNat = w.toNat / 32 := by
  have := w.isLt
  simp only [fieldImm11, BitVec.extractLsb'_toNat, Nat.shiftRight_eq_div_pow]
  omega

/-! ## The encoder's words as sums (R73) -/

/-- OR-ing a value above a number that fits below it adds them. -/
theorem or_shifted (x y p : Nat) (hx : x < 2 ^ p) : x ||| y * 2 ^ p = x + 2 ^ p * y := by
  rw [Nat.mul_comm y, Nat.or_comm, ← Nat.two_pow_add_eq_or_of_lt hx]
  omega

theorem toNat_encodeRR (op a b : Nat) (ho : op < 32) (ha : a < 8) (hb : b < 8) :
    (encodeRR op a b).toNat = op + 32 * a + 256 * b := by
  have h1 := or_shifted op a 5 (by omega)
  have h2 := or_shifted (op + 2 ^ 5 * a) b 8 (by omega)
  simp only [encodeRR, BitVec.toNat_or, BitVec.toNat_ofNat]
  rw [Nat.mod_eq_of_lt (by omega), Nat.mod_eq_of_lt (by omega), Nat.mod_eq_of_lt (by omega), h1, h2]
  omega

theorem toNat_encodeRI (op a i8 : Nat) (ho : op < 32) (ha : a < 8) (hi : i8 < 256) :
    (encodeRI op a i8).toNat = op + 32 * a + 256 * i8 := by
  have h1 := or_shifted op a 5 (by omega)
  have h2 := or_shifted (op + 2 ^ 5 * a) i8 8 (by omega)
  simp only [encodeRI, BitVec.toNat_or, BitVec.toNat_ofNat]
  rw [Nat.mod_eq_of_lt (by omega), Nat.mod_eq_of_lt (by omega), Nat.mod_eq_of_lt (by omega), h1, h2]
  omega

theorem toNat_encodeR (op a : Nat) (ho : op < 32) (ha : a < 8) : (encodeR op a).toNat = op + 32 * a := by
  have h1 := or_shifted op a 5 (by omega)
  simp only [encodeR, BitVec.toNat_or, BitVec.toNat_ofNat]
  rw [Nat.mod_eq_of_lt (by omega), Nat.mod_eq_of_lt (by omega), h1]
  omega

theorem toNat_encodeJ (op i11 : Nat) (ho : op < 32) (hi : i11 < 2048) : (encodeJ op i11).toNat = op + 32 * i11 := by
  have h1 := or_shifted op i11 5 (by omega)
  simp only [encodeJ, BitVec.toNat_or, BitVec.toNat_ofNat]
  rw [Nat.mod_eq_of_lt (by omega), Nat.mod_eq_of_lt (by omega), h1]
  omega

theorem toNat_encodeZ (op : Nat) (ho : op < 32) : (encodeZ op).toNat = op := by
  simp only [encodeZ, BitVec.toNat_ofNat]
  omega

/-! ## The fields of a word put together from fields (R71) -/

/-- The register form, any bits 15..11. -/
theorem fields_rr (u : BitVec 5) (b a : RegIdx) (n : OpNumber) :
    fieldOpcode (u ++ b ++ a ++ n) = n ∧ fieldA (u ++ b ++ a ++ n) = a ∧ fieldB (u ++ b ++ a ++ n) = b := by
  have hn := n.isLt
  have ha := a.isLt
  have hb := b.isLt
  have h : (u ++ b ++ a ++ n : Word).toNat = n.toNat + 32 * a.toNat + 256 * b.toNat + 2048 * u.toNat := by
    simp only [BitVec.toNat_append, Nat.shiftLeft_eq]
    rw [Nat.or_comm _ b.toNat, or_shifted _ _ 3 (by omega), Nat.or_comm _ a.toNat, or_shifted _ _ 3 (by omega),
      Nat.or_comm _ n.toNat, or_shifted _ _ 5 (by omega)]
    omega
  refine ⟨BitVec.eq_of_toNat_eq ?_, BitVec.eq_of_toNat_eq ?_, BitVec.eq_of_toNat_eq ?_⟩
  · rw [toNat_fieldOpcode, h]; omega
  · rw [toNat_fieldA, h]; omega
  · rw [toNat_fieldB, h]; omega

/-- The immediate form. -/
theorem fields_ri (i : Imm8) (a : RegIdx) (n : OpNumber) :
    fieldOpcode (i ++ a ++ n) = n ∧ fieldA (i ++ a ++ n) = a ∧ fieldImm8 (i ++ a ++ n) = i := by
  have hn := n.isLt
  have ha := a.isLt
  have h : (i ++ a ++ n : Word).toNat = n.toNat + 32 * a.toNat + 256 * i.toNat := by
    simp only [BitVec.toNat_append, Nat.shiftLeft_eq]
    rw [Nat.or_comm _ a.toNat, or_shifted _ _ 3 (by omega), Nat.or_comm _ n.toNat, or_shifted _ _ 5 (by omega)]
    omega
  refine ⟨BitVec.eq_of_toNat_eq ?_, BitVec.eq_of_toNat_eq ?_, BitVec.eq_of_toNat_eq ?_⟩
  · rw [toNat_fieldOpcode, h]; omega
  · rw [toNat_fieldA, h]; omega
  · rw [toNat_fieldImm8, h]; omega

/-- Layout 2. -/
theorem fields_j (i : Imm11) (n : OpNumber) : fieldOpcode (i ++ n) = n ∧ fieldImm11 (i ++ n) = i := by
  have hn := n.isLt
  have h : (i ++ n : Word).toNat = n.toNat + 32 * i.toNat := by
    simp only [BitVec.toNat_append, Nat.shiftLeft_eq]
    rw [Nat.or_comm _ n.toNat, or_shifted _ _ 5 (by omega)]
    omega
  refine ⟨BitVec.eq_of_toNat_eq ?_, BitVec.eq_of_toNat_eq ?_⟩
  · rw [toNat_fieldOpcode, h]; omega
  · rw [toNat_fieldImm11, h]; omega

/-- The bits a format keeps, as a remainder (R74). -/
theorem toNat_clearIgnored (f : Format) (w : Word) :
    (clearIgnored f w).toNat = match f with
      | .rr => w.toNat % 2048
      | .ri => w.toNat
      | .r => w.toNat % 256
      | .j => w.toNat
      | .z => w.toNat % 32 := by
  cases f <;> simp only [clearIgnored, BitVec.toNat_and, BitVec.toNat_ofNat]
  · exact Nat.and_two_pow_sub_one_eq_mod _ 11
  · exact Nat.and_two_pow_sub_one_eq_mod _ 8
  · exact Nat.and_two_pow_sub_one_eq_mod _ 5

/-! ## Well-formedness -/

/-- The operand types see to it that every instruction is well formed (log 28). -/
theorem instr_wellFormed (i : Instr) : i.wellFormed = true := by
  have h3 : ∀ x : BitVec 3, x.toNat < 8 := fun x => x.isLt
  have h8 : ∀ x : BitVec 8, x.toNat < 256 := fun x => x.isLt
  have h11 : ∀ x : BitVec 11, x.toNat < 2048 := fun x => x.isLt
  cases i <;> simp [Instr.wellFormed, RawFields.inRange, Instr.fields, h3, h8, h11]

/-! ## Dispatch (R82) -/

theorem mem_op_all (k : Op) : k ∈ Op.all := by
  cases k <;> decide

theorem eq_of_num_eq {o : OpNum} (h : o.injective = true) {k l : Op} (e : o.num k = o.num l) : k = l := by
  simp only [OpNum.injective, List.all_eq_true] at h
  simpa [e] using h k (mem_op_all k) l (mem_op_all l)

/-- The instruction dispatched to is the one whose number is the opcode. -/
theorem dispatch_num {o : OpNum} (h : o.injective = true) (k : Op) : dispatch o (o.num k) = some k := by
  have hs : (dispatch o (o.num k)).isSome = true := by
    rw [dispatch, List.find?_isSome]
    exact ⟨k, mem_op_all k, by simp⟩
  obtain ⟨l, hl⟩ := Option.isSome_iff_exists.mp hs
  have hn : o.num l = o.num k := by simpa using List.find?_some hl
  rw [hl, eq_of_num_eq h hn]

theorem dispatch_eq_some {o : OpNum} {n : OpNumber} {k : Op} (h : dispatch o n = some k) : o.num k = n := by
  simpa using List.find?_some h

theorem dispatch_eq_none {o : OpNum} {n : OpNumber} : dispatch o n = none ↔ ∀ k, o.num k ≠ n := by
  rw [dispatch, List.find?_eq_none]
  constructor
  · intro h k
    simpa using h k (mem_op_all k)
  · intro h k _
    simpa using h k

/-- What the decoder can answer (R82, R83). -/
theorem decode_cases (o : OpNum) (w : Word) :
    (∃ k, o.num k = fieldOpcode w ∧ decode o w = .ok (instrOf k w)) ∨
      ((∀ k, o.num k ≠ fieldOpcode w) ∧ decode o w = .error (.illegalInstruction w)) := by
  unfold decode
  cases h : dispatch o (fieldOpcode w) with
  | some k => exact .inl ⟨k, dispatch_eq_some h, rfl⟩
  | none => exact .inr ⟨dispatch_eq_none.mp h, rfl⟩

theorem decode_of_opcode {o : OpNum} (h : o.injective = true) {w : Word} {k : Op} (e : fieldOpcode w = o.num k) :
    decode o w = .ok (instrOf k w) := by
  simp [decode, e, dispatch_num h]

theorem instrOf_op (k : Op) (w : Word) : (instrOf k w).op = k := by
  cases k <;> rfl

end Sys2Proof.Laws
end

