-- ==== Sys2Proof/Laws/State.lean ====
section
/-! SUPPORT. One lemma for each field and each update of the state, and the register file's read-after-write law. -/

namespace Sys2Proof.Machine.State

/-! ## Reading a register after writing one -/

theorem reg_setReg (s : State) (r q : RegIdx) (v : Word) :
    (s.setReg r v).reg q = if q = r then v else s.reg q := by
  simp only [reg, setReg, Vector.getElem_set, ← BitVec.toNat_inj]
  simp [eq_comm]

@[simp] theorem reg_setReg_self (s : State) (r : RegIdx) (v : Word) : (s.setReg r v).reg r = v := by
  simp [reg_setReg]

theorem reg_setReg_of_ne (s : State) (r q : RegIdx) (v : Word) (h : q ≠ r) : (s.setReg r v).reg q = s.reg q := by
  simp [reg_setReg, h]

/-- Two states with the same registers, field by field, have the same register file. -/
theorem regs_ext (s t : State) (h : ∀ r, s.reg r = t.reg r) : s.regs = t.regs := by
  apply Vector.ext
  intro i hi
  have := h (BitVec.ofNat 3 i)
  simpa [reg, Nat.mod_eq_of_lt hi] using this

/-! ## Fields of the updates -/

@[simp] theorem setReg_cfg (s : State) (r : RegIdx) (v : Word) : (s.setReg r v).cfg = s.cfg := rfl
@[simp] theorem setReg_pc (s : State) (r : RegIdx) (v : Word) : (s.setReg r v).pc = s.pc := rfl
@[simp] theorem setReg_sp (s : State) (r : RegIdx) (v : Word) : (s.setReg r v).sp = s.sp := rfl
@[simp] theorem setReg_halt (s : State) (r : RegIdx) (v : Word) : (s.setReg r v).halt = s.halt := rfl
@[simp] theorem setReg_fault (s : State) (r : RegIdx) (v : Word) : (s.setReg r v).fault = s.fault := rfl
@[simp] theorem setReg_mem (s : State) (r : RegIdx) (v : Word) : (s.setReg r v).mem = s.mem := rfl
@[simp] theorem setReg_byteAt (s : State) (r : RegIdx) (v : Word) (n : Nat) : (s.setReg r v).byteAt n = s.byteAt n := rfl

@[simp] theorem setPc_cfg (s : State) (p : Word) : (s.setPc p).cfg = s.cfg := rfl
@[simp] theorem setPc_regs (s : State) (p : Word) : (s.setPc p).regs = s.regs := rfl
@[simp] theorem setPc_pc (s : State) (p : Word) : (s.setPc p).pc = p := rfl
@[simp] theorem setPc_sp (s : State) (p : Word) : (s.setPc p).sp = s.sp := rfl
@[simp] theorem setPc_halt (s : State) (p : Word) : (s.setPc p).halt = s.halt := rfl
@[simp] theorem setPc_fault (s : State) (p : Word) : (s.setPc p).fault = s.fault := rfl
@[simp] theorem setPc_mem (s : State) (p : Word) : (s.setPc p).mem = s.mem := rfl
@[simp] theorem setPc_reg (s : State) (p : Word) (q : RegIdx) : (s.setPc p).reg q = s.reg q := rfl
@[simp] theorem setPc_byteAt (s : State) (p : Word) (n : Nat) : (s.setPc p).byteAt n = s.byteAt n := rfl

@[simp] theorem setHalt_cfg (s : State) : (s.setHalt).cfg = s.cfg := rfl
@[simp] theorem setHalt_regs (s : State) : (s.setHalt).regs = s.regs := rfl
@[simp] theorem setHalt_pc (s : State) : (s.setHalt).pc = s.pc := rfl
@[simp] theorem setHalt_sp (s : State) : (s.setHalt).sp = s.sp := rfl
@[simp] theorem setHalt_halt (s : State) : (s.setHalt).halt = true := rfl
@[simp] theorem setHalt_fault (s : State) : (s.setHalt).fault = s.fault := rfl
@[simp] theorem setHalt_mem (s : State) : (s.setHalt).mem = s.mem := rfl
@[simp] theorem setHalt_reg (s : State) (q : RegIdx) : (s.setHalt).reg q = s.reg q := rfl
@[simp] theorem setHalt_byteAt (s : State) (n : Nat) : (s.setHalt).byteAt n = s.byteAt n := rfl

@[simp] theorem advance_cfg (s : State) : (s.advance).cfg = s.cfg := rfl
@[simp] theorem advance_regs (s : State) : (s.advance).regs = s.regs := rfl
@[simp] theorem advance_pc (s : State) : (s.advance).pc = s.pc + 2#16 := rfl
@[simp] theorem advance_sp (s : State) : (s.advance).sp = s.sp := rfl
@[simp] theorem advance_halt (s : State) : (s.advance).halt = s.halt := rfl
@[simp] theorem advance_fault (s : State) : (s.advance).fault = s.fault := rfl
@[simp] theorem advance_mem (s : State) : (s.advance).mem = s.mem := rfl
@[simp] theorem advance_reg (s : State) (q : RegIdx) : (s.advance).reg q = s.reg q := rfl
@[simp] theorem advance_byteAt (s : State) (n : Nat) : (s.advance).byteAt n = s.byteAt n := rfl

@[simp] theorem raise_cfg (s : State) (f : Fault) (info : Word) : (s.raise f info).cfg = s.cfg := rfl
@[simp] theorem raise_regs (s : State) (f : Fault) (info : Word) : (s.raise f info).regs = s.regs := rfl
@[simp] theorem raise_pc (s : State) (f : Fault) (info : Word) : (s.raise f info).pc = s.pc := rfl
@[simp] theorem raise_sp (s : State) (f : Fault) (info : Word) : (s.raise f info).sp = s.sp := rfl
@[simp] theorem raise_halt (s : State) (f : Fault) (info : Word) : (s.raise f info).halt = s.halt := rfl
@[simp] theorem raise_fault (s : State) (f : Fault) (info : Word) : (s.raise f info).fault = some { cause := f, info := info } := rfl
@[simp] theorem raise_mem (s : State) (f : Fault) (info : Word) : (s.raise f info).mem = s.mem := rfl
@[simp] theorem raise_reg (s : State) (f : Fault) (info : Word) (q : RegIdx) : (s.raise f info).reg q = s.reg q := rfl
@[simp] theorem raise_byteAt (s : State) (f : Fault) (info : Word) (n : Nat) : (s.raise f info).byteAt n = s.byteAt n := rfl

end Sys2Proof.Machine.State
end

