-- ==== Sys2Proof/Laws/Memory.lean ====
section
/-! SUPPORT. The laws of the memory array: read after write, the canonical form, and that equal contents are equal lists. -/

namespace Sys2Proof.Machine.Memory

/-! ## Read after write -/

theorem read_insert_self (m : Memory) (a : Nat) (v : Byte) (h : ∀ c ∈ m, c.1 ≠ a) : (Memory.insert m a v).read a = v := by
  induction m with
  | nil => simp [Memory.insert, Memory.read]
  | cons c m ih =>
    have hc : c.1 ≠ a := h c (by simp)
    have ih' := ih fun d hd => h d (by simp [hd])
    simp only [Memory.insert]
    split <;> simp [Memory.read, hc, ih']

theorem read_insert_of_ne (m : Memory) (a n : Nat) (v : Byte) (h : n ≠ a) : (Memory.insert m a v).read n = m.read n := by
  induction m with
  | nil => simp [Memory.insert, Memory.read, h.symm]
  | cons c m ih =>
    simp only [Memory.insert]
    split
    · simp [Memory.read, h.symm]
    · simp [Memory.read, ih]

theorem read_erase (m : Memory) (a n : Nat) : (m.erase a).read n = if n = a then 0#8 else m.read n := by
  induction m with
  | nil => simp [Memory.erase, Memory.read]
  | cons c m ih =>
    rw [Memory.erase] at ih
    rw [Memory.erase, List.filter_cons]
    by_cases hc : c.1 = a
    · subst hc
      by_cases hn : n = c.1
      · subst hn
        simpa using ih
      · have hn' : ¬c.1 = n := fun h => hn h.symm
        simpa [Memory.read, hn, hn'] using ih
    · by_cases hn : c.1 = n
      · subst hn
        simp [Memory.read, hc]
      · simpa [Memory.read, hc, hn] using ih

theorem mem_erase_ne (m : Memory) (a : Nat) : ∀ c ∈ m.erase a, c.1 ≠ a := by
  intro c hc
  simpa using (List.mem_filter.mp hc).2

/-- Reading any address after writing one: the written byte there, the old byte elsewhere (R53). It holds of every list. -/
theorem read_write (m : Memory) (a n : Nat) (v : Byte) : (m.write a v).read n = if n = a then v else m.read n := by
  unfold Memory.write
  split
  · subst v
    exact read_erase m a n
  · by_cases h : n = a
    · subst h
      simp [read_insert_self _ _ _ (mem_erase_ne m n)]
    · simp [read_insert_of_ne _ _ _ _ h, read_erase, h]

/-- Bytes written one after the other. -/
theorem read_writeBytes (vs : List Byte) :
    ∀ (m : Memory) (a n : Nat),
      (m.writeBytes a vs).read n = if h : a ≤ n ∧ n - a < vs.length then vs[n - a] else m.read n := by
  induction vs with
  | nil => simp [Memory.writeBytes]
  | cons v vs ih =>
    intro m a n
    rw [Memory.writeBytes, ih, read_write]
    rcases Nat.lt_trichotomy n a with h | rfl | h
    · have h1 : ¬ (a + 1 ≤ n) := by omega
      have h2 : ¬ (a ≤ n) := by omega
      have h3 : n ≠ a := by omega
      simp [h1, h2, h3]
    · simp
    · have h3 : n ≠ a := by omega
      have h4 : n - a = n - (a + 1) + 1 := by omega
      have h5 : a + 1 ≤ n := h
      have h6 : a ≤ n := by omega
      simp [h3, h4, h5, h6]

/-! ## The canonical form -/

theorem wfAbove_erase (m : Memory) (a : Nat) : ∀ b, m.wfAbove b = true → (m.erase a).wfAbove b = true := by
  induction m with
  | nil => intro b; simp [Memory.erase, Memory.wfAbove]
  | cons c m ih =>
    intro b h
    simp only [Memory.wfAbove, Bool.and_eq_true, decide_eq_true_eq] at h
    have weaken : ∀ (m : Memory) (b b' : Nat), b ≤ b' → m.wfAbove b' = true → m.wfAbove b = true := by
      intro m b b' hb hm
      cases m with
      | nil => rfl
      | cons d m =>
        simp only [Memory.wfAbove, Bool.and_eq_true, decide_eq_true_eq] at hm ⊢
        exact ⟨⟨by omega, hm.1.2⟩, hm.2⟩
    have ih' := ih c.1 h.2
    rw [Memory.erase] at ih'
    rw [Memory.erase, List.filter_cons]
    split
    · simp only [Memory.wfAbove, Bool.and_eq_true, decide_eq_true_eq]
      exact ⟨h.1, ih'⟩
    · exact weaken _ b c.1 (by omega) ih'

theorem wf_eq_wfAbove (m : Memory) : m.wf = true ↔ m = [] ∨ ∃ c m', m = c :: m' ∧ c.2 ≠ 0#8 ∧ Memory.wfAbove c.1 m' = true := by
  cases m with
  | nil => simp [Memory.wf]
  | cons c m => simp [Memory.wf]

theorem wf_of_wfAbove {m : Memory} {b : Nat} (h : m.wfAbove b = true) : m.wf = true := by
  cases m with
  | nil => rfl
  | cons c m =>
    simp only [Memory.wfAbove, Bool.and_eq_true] at h
    simp [Memory.wf, h.1.2, h.2]

theorem wf_erase (m : Memory) (a : Nat) (h : m.wf = true) : (m.erase a).wf = true := by
  rcases (wf_eq_wfAbove m).mp h with rfl | ⟨c, m', rfl, hc, hm⟩
  · rfl
  · have hm' := wfAbove_erase m' a c.1 hm
    rw [Memory.erase] at hm'
    rw [Memory.erase, List.filter_cons]
    split
    · simp [Memory.wf, hc, hm']
    · exact wf_of_wfAbove hm'

theorem wfAbove_insert (m : Memory) (a : Nat) (v : Byte) (hv : v ≠ 0#8) (hne : ∀ c ∈ m, c.1 ≠ a) :
    ∀ b, b < a → m.wfAbove b = true → (Memory.insert m a v).wfAbove b = true := by
  induction m with
  | nil => intro b hb _; simp [Memory.insert, Memory.wfAbove, hb, hv]
  | cons c m ih =>
    intro b hb h
    have hc : c.1 ≠ a := hne c (by simp)
    simp only [Memory.wfAbove, Bool.and_eq_true, decide_eq_true_eq] at h
    simp only [Memory.insert]
    split
    · next hlt => simp only [Memory.wfAbove, Bool.and_eq_true, decide_eq_true_eq]; exact ⟨⟨hb, by simpa using hv⟩, ⟨hlt, h.1.2⟩, h.2⟩
    · next hlt =>
      have := ih (fun d hd => hne d (by simp [hd])) c.1 (by omega) h.2
      simp only [Memory.wfAbove, Bool.and_eq_true, decide_eq_true_eq]
      exact ⟨h.1, this⟩

theorem wf_insert (m : Memory) (a : Nat) (v : Byte) (hv : v ≠ 0#8) (hne : ∀ c ∈ m, c.1 ≠ a) (h : m.wf = true) :
    (Memory.insert m a v).wf = true := by
  rcases (wf_eq_wfAbove m).mp h with rfl | ⟨c, m', rfl, hc, hm⟩
  · simp [Memory.insert, Memory.wf, Memory.wfAbove, hv]
  · have hca : c.1 ≠ a := hne c (by simp)
    simp only [Memory.insert]
    split
    · next hlt => simp [Memory.wf, Memory.wfAbove, hv, hlt, hc, hm]
    · next hlt =>
      have := wfAbove_insert m' a v hv (fun d hd => hne d (by simp [hd])) c.1 (by omega) hm
      simp [Memory.wf, hc, this]

/-- Every write keeps the canonical form. -/
theorem wf_write (m : Memory) (a : Nat) (v : Byte) (h : m.wf = true) : (m.write a v).wf = true := by
  unfold Memory.write
  split
  · exact wf_erase m a h
  · next hv => exact wf_insert _ a v hv (mem_erase_ne m a) (wf_erase m a h)

theorem wf_writeBytes (vs : List Byte) : ∀ (m : Memory) (a : Nat), m.wf = true → (m.writeBytes a vs).wf = true := by
  induction vs with
  | nil => intro m a h; exact h
  | cons v vs ih => intro m a h; exact ih _ _ (wf_write m a v h)

/-! ## Listed addresses -/

theorem within_insert (m : Memory) (a size : Nat) (v : Byte) (ha : a < size) (h : m.within size = true) :
    (Memory.insert m a v).within size = true := by
  induction m with
  | nil => simpa [Memory.insert, Memory.within] using ha
  | cons c m ih =>
    simp only [Memory.within, List.all_cons, Bool.and_eq_true] at h ih
    simp only [Memory.insert]
    split
    · simp only [Memory.within, List.all_cons, Bool.and_eq_true]
      exact ⟨by simpa using ha, h⟩
    · simp only [Memory.within, List.all_cons, Bool.and_eq_true]
      exact ⟨h.1, ih h.2⟩

/-- A write at an address that exists lists no address that does not. -/
theorem within_write (m : Memory) (a size : Nat) (v : Byte) (ha : a < size) (h : m.within size = true) :
    (m.write a v).within size = true := by
  have he : (m.erase a).within size = true := by
    simp only [Memory.within, Memory.erase, List.all_eq_true] at h ⊢
    exact fun c hc => h c (List.mem_filter.mp hc).1
  unfold Memory.write
  split
  · exact he
  · exact within_insert _ a size v ha he

theorem within_writeBytes (size : Nat) (vs : List Byte) :
    ∀ (m : Memory) (a : Nat), a + vs.length ≤ size → m.within size = true → (m.writeBytes a vs).within size = true := by
  induction vs with
  | nil => intro m a _ h; exact h
  | cons v vs ih =>
    intro m a ha h
    rw [List.length_cons] at ha
    exact ih _ _ (by omega) (within_write m a size v (by omega) h)

/-- Below the first listed address everything reads 0. -/
theorem read_of_wfAbove (m : Memory) : ∀ (b n : Nat), n ≤ b → m.wfAbove b = true → m.read n = 0#8 := by
  induction m with
  | nil => intros; rfl
  | cons c m ih =>
    intro b n hn h
    simp only [Memory.wfAbove, Bool.and_eq_true, decide_eq_true_eq] at h
    have hc : ¬c.1 = n := by omega
    simpa [Memory.read, hc] using ih c.1 n (by omega) h.2

end Sys2Proof.Machine.Memory
end

