-- ==== Sys2Proof/Laws/Ops.lean ====
section
/-! SUPPORT. For each shared operation, one lemma that says everything it can do. -/

namespace Sys2Proof.Machine.State

/-! ## Reading memory -/

theorem inRange_word (s : State) (a : Word) : s.inRange a .word = true ↔ a.toNat + 1 < s.cfg.memSize := by
  rw [inRange, decide_eq_true_eq, Width.bytes]
  omega

theorem inRange_byte (s : State) (a : Word) : s.inRange a .byte = true ↔ a.toNat < s.cfg.memSize := by
  rw [inRange, decide_eq_true_eq, Width.bytes]
  omega

theorem memRead_word (s : State) (a : Word) :
    s.memRead a .word = if a.toNat + 1 < s.cfg.memSize then some (s.wordAt a.toNat) else none := by
  simp only [memRead, inRange_word]

theorem memRead_byte (s : State) (a : Word) :
    s.memRead a .byte = if a.toNat < s.cfg.memSize then some ((s.byteAt a.toNat).zeroExtend 16) else none := by
  simp only [memRead, inRange_byte]

theorem toNat_wordOfBytes (lo hi : Byte) : (wordOfBytes lo hi).toNat = lo.toNat + 256 * hi.toNat := by
  have hl := lo.isLt
  rw [wordOfBytes, BitVec.toNat_append, Nat.shiftLeft_eq, Nat.mul_comm hi.toNat,
    ← Nat.two_pow_add_eq_or_of_lt hl]
  omega

/-- A word in memory is its low byte and 256 times its high byte (R44). -/
theorem toNat_wordAt (s : State) (n : Nat) : (s.wordAt n).toNat = (s.byteAt n).toNat + 256 * (s.byteAt (n + 1)).toNat :=
  toNat_wordOfBytes _ _

theorem toNat_lowByte (w : Word) : (lowByte w).toNat = w.toNat % 256 := by
  simp [lowByte, BitVec.extractLsb'_toNat]

theorem toNat_highByte (w : Word) : (highByte w).toNat = w.toNat / 256 := by
  have := w.isLt
  simp only [highByte, BitVec.extractLsb'_toNat, Nat.shiftRight_eq_div_pow]
  omega

theorem wordOfBytes_lowByte_highByte (w : Word) : wordOfBytes (lowByte w) (highByte w) = w := by
  apply BitVec.eq_of_toNat_eq
  rw [toNat_wordOfBytes, toNat_lowByte, toNat_highByte]
  omega

/-! ## Writing memory -/

/-- What a successful write does (R45): the address was in range and only `mem` changes. -/
theorem memWrite_eq_some {s t : State} {a : Word} {n : Width} {v : Word} (h : s.memWrite a n v = some t) :
    s.inRange a n = true ∧
      t = { s with mem := s.mem.store a.toNat n v } := by
  unfold memWrite at h
  split at h
  · next hr => exact ⟨hr, (Option.some.inj h).symm⟩
  · cases h

theorem memWrite_eq_none {s : State} {a : Word} {n : Width} {v : Word} :
    s.memWrite a n v = none ↔ s.inRange a n = false := by
  unfold memWrite
  cases h : s.inRange a n <;> simp

/-- Every byte after a 1-byte write (R45). -/
theorem byteAt_memWrite_byte {s t : State} {a v : Word} (h : s.memWrite a .byte v = some t) (n : Nat) :
    t.byteAt n = if n = a.toNat then lowByte v else s.byteAt n := by
  rw [(memWrite_eq_some h).2]
  exact Memory.read_write _ _ _ _

/-- Every byte after a 2-byte write (R45). -/
theorem byteAt_memWrite_word {s t : State} {a v : Word} (h : s.memWrite a .word v = some t) (n : Nat) :
    t.byteAt n = if n = a.toNat + 1 then highByte v else if n = a.toNat then lowByte v else s.byteAt n := by
  rw [(memWrite_eq_some h).2]
  simp [byteAt, Memory.store, Memory.read_write]

/-- A write changes nothing but memory. -/
theorem memWrite_fields {s t : State} {a : Word} {n : Width} {v : Word} (h : s.memWrite a n v = some t) :
    t.cfg = s.cfg ∧ t.regs = s.regs ∧ t.pc = s.pc ∧ t.sp = s.sp ∧ t.halt = s.halt ∧ t.fault = s.fault := by
  rw [(memWrite_eq_some h).2]
  exact ⟨rfl, rfl, rfl, rfl, rfl, rfl⟩

/-- A write keeps the canonical form. -/
theorem wf_memWrite {s t : State} {a : Word} {n : Width} {v : Word} (h : s.memWrite a n v = some t)
    (hw : s.mem.wf = true) : t.mem.wf = true := by
  rw [(memWrite_eq_some h).2]
  cases n
  · exact Memory.wf_write _ _ _ hw
  · exact Memory.wf_write _ _ _ (Memory.wf_write _ _ _ hw)

/-- A write lists no address outside memory. -/
theorem within_memWrite {s t : State} {a : Word} {n : Width} {v : Word} (h : s.memWrite a n v = some t)
    (hw : s.mem.within s.cfg.memSize = true) : t.mem.within t.cfg.memSize = true := by
  obtain ⟨hr, rfl⟩ := memWrite_eq_some h
  cases n
  · exact Memory.within_write _ _ _ _ ((inRange_byte s a).mp hr) hw
  · have hr' := (inRange_word s a).mp hr
    have hr'' : a.toNat < s.cfg.memSize := by omega
    exact Memory.within_write _ _ _ _ hr' (Memory.within_write _ _ _ _ hr'' hw)

/-- Placing an instruction word keeps the canonical form. -/
theorem wf_placeWord (s : State) (nbits w : Nat) (hw : s.mem.wf = true) : (s.placeWord nbits w).mem.wf = true := by
  unfold placeWord
  split
  · exact Memory.wf_writeBytes _ _ _ hw
  · exact hw

/-! ## The shared shapes of a meaning -/

/-- A load either completes with the value read or faults. -/
theorem loadInto_cases (s : State) (r : RegIdx) (a : Word) (n : Width) :
    (∃ v, s.memRead a n = some v ∧ s.loadInto r a n = .next (s.setReg r v).advance) ∨
      (s.memRead a n = none ∧ s.loadInto r a n = .next (s.raise .loadOutOfRange a)) := by
  unfold loadInto
  cases h : s.memRead a n with
  | some v => exact .inl ⟨v, rfl, rfl⟩
  | none => exact .inr ⟨rfl, rfl⟩

/-- A store either completes with the memory written or faults. -/
theorem storeAt_cases (s : State) (a : Word) (n : Width) (v : Word) :
    (∃ t, s.memWrite a n v = some t ∧ s.storeAt a n v = .next t.advance) ∨
      (s.memWrite a n v = none ∧ s.storeAt a n v = .next (s.raise .storeOutOfRange a)) := by
  unfold storeAt
  cases h : s.memWrite a n v with
  | some t => exact .inl ⟨t, rfl, rfl⟩
  | none => exact .inr ⟨rfl, rfl⟩

/-- A remainder either completes or faults on a zero divisor. -/
theorem remainder_cases (s : State) (a : RegIdx) (d : Word) :
    (d ≠ 0#16 ∧ s.remainder a d = .next (s.setReg a (s.reg a % d)).advance) ∨
      (d = 0#16 ∧ s.remainder a d = .next (s.raise .divideByZero s.instrWord)) := by
  unfold remainder
  split
  · next h => exact .inr ⟨h, rfl⟩
  · next h => exact .inl ⟨h, rfl⟩

/-- A jump is taken or not. -/
theorem jumpIf_cases (s : State) (cond : Word → Bool) (imm : Imm11) :
    (cond (s.reg 0#3) = true ∧ s.jumpIf cond imm = .next (s.setPc (zextImm11 imm)).advance) ∨
      (cond (s.reg 0#3) = false ∧ s.jumpIf cond imm = .next s.advance) := by
  unfold jumpIf
  split
  · next h => exact .inl ⟨h, rfl⟩
  · next h => exact .inr ⟨by simpa using h, rfl⟩

/-! ## The run state -/

theorem runState_running (s : State) : s.runState = .running ↔ s.fault = none ∧ s.halt = false := by
  unfold runState
  cases s.fault <;> cases s.halt <;> simp

theorem runState_halted (s : State) : s.runState = .halted ↔ s.fault = none ∧ s.halt = true := by
  unfold runState
  cases s.fault <;> cases s.halt <;> simp

theorem runState_faulted (s : State) (r : FaultRecord) : s.runState = .faulted r ↔ s.fault = some r := by
  unfold runState
  cases s.fault <;> cases s.halt <;> simp

end Sys2Proof.Machine.State

namespace Sys2Proof.Machine

/-- Everything a step can do: nothing, a fetch fault, an illegal instruction, or the decoded instruction (R110, R111). -/
theorem step_cases (s : State) :
    (s.runState ≠ .running ∧ step s = .next s) ∨
      (s.runState = .running ∧ s.fetch = none ∧ step s = .next (s.raise .fetchOutOfRange s.pc)) ∨
      (∃ w e, s.runState = .running ∧ s.fetch = some w ∧ decode s.cfg.opnum w = .error e ∧
        step s = .next (s.raise .illegalInstruction w)) ∨
      (∃ w i, s.runState = .running ∧ s.fetch = some w ∧ decode s.cfg.opnum w = .ok i ∧ step s = exec i s) := by
  unfold step
  cases hr : s.runState with
  | halted => exact .inl ⟨by simp, rfl⟩
  | faulted r => exact .inl ⟨by simp, rfl⟩
  | running =>
    cases hf : s.fetch with
    | none => exact .inr (.inl ⟨rfl, rfl, rfl⟩)
    | some w =>
      cases hd : decode s.cfg.opnum w with
      | error e => exact .inr (.inr (.inl ⟨w, e, rfl, rfl, hd, by simp [hd]; rfl⟩))
      | ok i => exact .inr (.inr (.inr ⟨w, i, rfl, rfl, hd, by simp [hd]⟩))

end Sys2Proof.Machine
end

