-- ==== Sys2Proof/Laws/Effects.lean ====
section
/-! SUPPORT. The values the operations compute, as numbers, and the two commonest effects in the terms the statements use. -/

namespace Sys2Proof.Machine

/-! ## Values -/

theorem toNat_zextImm8 (imm : Imm8) : (zextImm8 imm).toNat = imm.toNat := by
  have := imm.isLt
  simp [zextImm8]
  omega

theorem toNat_zextImm11 (imm : Imm11) : (zextImm11 imm).toNat = imm.toNat := by
  have := imm.isLt
  simp [zextImm11]
  omega

theorem toNat_compareCode (x y : Word) :
    (compareCode x y).toNat = if x.toNat < y.toNat then 0 else (x.toNat - y.toNat + 1) % 65536 := by
  have := x.isLt
  have := y.isLt
  unfold compareCode
  split
  · rfl
  · simp [BitVec.toNat_add, BitVec.toNat_sub]
    omega

theorem condE_iff (v : Word) : condE v = true ↔ v.toNat = 1 := by
  simp [condE, ← BitVec.toNat_inj]

theorem condN_iff (v : Word) : condN v = true ↔ ¬ v.toNat = 1 := by
  simp [condN, ← BitVec.toNat_inj]

theorem condG_iff (v : Word) : condG v = true ↔ 1 < v.toNat := by
  simp [condG]

theorem condL_iff (v : Word) : condL v = true ↔ v.toNat = 0 ∨ 32768 ≤ v.toNat := by
  have := v.isLt
  rw [condL, decide_eq_true_eq, signed16]
  split <;> omega

theorem toNat_shiftLeft (v : Word) (n : Nat) :
    (shiftLeft v n).toNat = if 16 ≤ n then 0 else v.toNat * 2 ^ n % 65536 := by
  unfold shiftLeft
  split <;> simp [Nat.shiftLeft_eq]

theorem toNat_shiftRight (v : Word) (n : Nat) :
    (shiftRight v n).toNat = if 16 ≤ n then 0 else v.toNat / 2 ^ n := by
  unfold shiftRight
  split <;> simp [Nat.shiftRight_eq_div_pow]

/-! ## Effects -/

/-- A register write and the advance change that register and `pc`, nothing else. -/
theorem writesReg_setReg (s : State) (d : RegIdx) (v : Word) : WritesReg d v.toNat s (s.setReg d v).advance :=
  ⟨by simp, fun r hr => by simp [State.reg_setReg_of_ne _ _ _ _ hr], by simp [Advanced, BitVec.toNat_add],
    fun _ => rfl, ⟨rfl, rfl, rfl, rfl⟩⟩

/-- A taken jump changes `pc` and nothing else. -/
theorem writesPc_setPc (s : State) (imm : Imm11) : WritesPc (imm.toNat + 2) s (s.setPc (zextImm11 imm)).advance := by
  have := imm.isLt
  refine ⟨?_, fun _ => rfl, fun _ => rfl, ⟨rfl, rfl, rfl, rfl⟩⟩
  simp [BitVec.toNat_add, toNat_zextImm11]
  omega

/-- The advance changes `pc` and nothing else. -/
theorem writesPc_advance (s : State) : WritesPc ((s.pc.toNat + 2) % 65536) s s.advance :=
  ⟨by simp [BitVec.toNat_add], fun _ => rfl, fun _ => rfl, ⟨rfl, rfl, rfl, rfl⟩⟩

/-- The word at `pc` is the one the fetch has read (R15). -/
theorem instrWord_of_fetch {s : State} {w : Word} (h : s.fetch = some w) : s.instrWord = w := by
  rw [State.fetch, State.memRead_word] at h
  split at h
  · exact Option.some.inj h
  · cases h

end Sys2Proof.Machine
end

