-- ==== Sys2Proof/Laws/PerInstr.lean ====
section
/-! SUPPORT. The per-instruction family `EncodesOpcode`: an instruction's word carries its opcode number in bits 4..0
(30_encoding.md R73, R82). -/

namespace Sys2Proof.Laws

/-! ## The opcode field of each format's word -/

theorem opcode_of_rr (n : OpNumber) (a b : RegIdx) : fieldOpcode (encodeRR n.toNat a.toNat b.toNat) = n := by
  apply BitVec.eq_of_toNat_eq
  have hn := n.isLt
  rw [toNat_fieldOpcode, toNat_encodeRR _ _ _ n.isLt a.isLt b.isLt]
  omega

theorem opcode_of_ri (n : OpNumber) (a : RegIdx) (imm : Imm8) : fieldOpcode (encodeRI n.toNat a.toNat imm.toNat) = n := by
  apply BitVec.eq_of_toNat_eq
  have hn := n.isLt
  rw [toNat_fieldOpcode, toNat_encodeRI _ _ _ n.isLt a.isLt imm.isLt]
  omega

theorem opcode_of_r (n : OpNumber) (a : RegIdx) : fieldOpcode (encodeR n.toNat a.toNat) = n := by
  apply BitVec.eq_of_toNat_eq
  have hn := n.isLt
  rw [toNat_fieldOpcode, toNat_encodeR _ _ n.isLt a.isLt]
  omega

theorem opcode_of_j (n : OpNumber) (imm : Imm11) : fieldOpcode (encodeJ n.toNat imm.toNat) = n := by
  apply BitVec.eq_of_toNat_eq
  have hn := n.isLt
  rw [toNat_fieldOpcode, toNat_encodeJ _ _ n.isLt imm.isLt]
  omega

theorem opcode_of_z (n : OpNumber) : fieldOpcode (encodeZ n.toNat) = n := by
  apply BitVec.eq_of_toNat_eq
  have hn := n.isLt
  rw [toNat_fieldOpcode, toNat_encodeZ _ n.isLt]
  omega

end Sys2Proof.Laws

namespace Sys2Proof.Laws.EncodesOpcode

/-- Bits 4..0 of the instruction's word are its `OPNUM`, whatever the numbering. -/
def Statement (i : Instr) : Prop :=
  ∀ o : OpNum, fieldOpcode (encode o i) = o.num i.op

theorem mov (a b : RegIdx) : Statement (.mov a b) := fun o => opcode_of_rr (o.num .mov) a b
theorem movi (a : RegIdx) (imm : Imm8) : Statement (.movi a imm) := fun o => opcode_of_ri (o.num .movi) a imm
theorem cmp (a b : RegIdx) : Statement (.cmp a b) := fun o => opcode_of_rr (o.num .cmp) a b
theorem je (imm : Imm11) : Statement (.je imm) := fun o => opcode_of_j (o.num .je) imm
theorem jn (imm : Imm11) : Statement (.jn imm) := fun o => opcode_of_j (o.num .jn) imm
theorem jg (imm : Imm11) : Statement (.jg imm) := fun o => opcode_of_j (o.num .jg) imm
theorem jl (imm : Imm11) : Statement (.jl imm) := fun o => opcode_of_j (o.num .jl) imm
theorem add (a b : RegIdx) : Statement (.add a b) := fun o => opcode_of_rr (o.num .add) a b
theorem addi (a : RegIdx) (imm : Imm8) : Statement (.addi a imm) := fun o => opcode_of_ri (o.num .addi) a imm
theorem sub (a b : RegIdx) : Statement (.sub a b) := fun o => opcode_of_rr (o.num .sub) a b
theorem subi (a : RegIdx) (imm : Imm8) : Statement (.subi a imm) := fun o => opcode_of_ri (o.num .subi) a imm
theorem mod (a b : RegIdx) : Statement (.mod a b) := fun o => opcode_of_rr (o.num .mod) a b
theorem modi (a : RegIdx) (imm : Imm8) : Statement (.modi a imm) := fun o => opcode_of_ri (o.num .modi) a imm
theorem and (a b : RegIdx) : Statement (.and a b) := fun o => opcode_of_rr (o.num .and) a b
theorem or (a b : RegIdx) : Statement (.or a b) := fun o => opcode_of_rr (o.num .or) a b
theorem xor (a b : RegIdx) : Statement (.xor a b) := fun o => opcode_of_rr (o.num .xor) a b
theorem bsl (a b : RegIdx) : Statement (.bsl a b) := fun o => opcode_of_rr (o.num .bsl) a b
theorem bsr (a b : RegIdx) : Statement (.bsr a b) := fun o => opcode_of_rr (o.num .bsr) a b
theorem bsli (a : RegIdx) (imm : Imm8) : Statement (.bsli a imm) := fun o => opcode_of_ri (o.num .bsli) a imm
theorem bsri (a : RegIdx) (imm : Imm8) : Statement (.bsri a imm) := fun o => opcode_of_ri (o.num .bsri) a imm
theorem ldw (a b : RegIdx) : Statement (.ldw a b) := fun o => opcode_of_rr (o.num .ldw) a b
theorem ldb (a b : RegIdx) : Statement (.ldb a b) := fun o => opcode_of_rr (o.num .ldb) a b
theorem stw (a b : RegIdx) : Statement (.stw a b) := fun o => opcode_of_rr (o.num .stw) a b
theorem stb (a b : RegIdx) : Statement (.stb a b) := fun o => opcode_of_rr (o.num .stb) a b
theorem push (imm : Imm11) : Statement (.push imm) := fun o => opcode_of_j (o.num .push) imm
theorem pop (a : RegIdx) : Statement (.pop a) := fun o => opcode_of_r (o.num .pop) a
theorem halt : Statement (.halt) := fun o => opcode_of_z (o.num .halt)

end Sys2Proof.Laws.EncodesOpcode
end

