-- ==== Sys2Proof/Tests/Slice0.lean ====
section
/-! SUPPORT. Tests: the checks refuse ill-formed values; words written out from the encoding table decode; the vectors of
95_test_vectors.md, one step each; and for every statement with hypotheses a concrete case that meets them. -/

namespace Sys2Proof.Tests

open Sys2Proof.Machine

/-! ## Helpers -/

/-- The state after reset with one instruction word at `pc`, as the vectors of 95_test_vectors.md start. -/
def start (w : Nat) : State :=
  State.reset.withFetchWord 16 w

/-- The same with a memory of 0x1000 bytes. -/
def startSmall (w : Nat) : State :=
  { start w with cfg := { Config.t0 with memSize := 0x1000 } }

/-- The same with the word at another `pc`. -/
def startAt (pc : Word) (w : Nat) : State :=
  (State.reset.setPc pc).withFetchWord 16 w

/-- With a byte of memory set. -/
def poke (s : State) (a : Nat) (v : Byte) : State :=
  { s with mem := s.mem.write a v }

/-- The state an answer holds; the one given where it holds none. -/
def stateOf (s : State) : Result → State
  | .next t => t
  | .fault _ => s
  | .refused _ => s

/-- The state after one step. -/
def after (s : State) : State :=
  stateOf s (step s)

/-- The state after one instruction. -/
def done (i : Instr) (s : State) : State :=
  stateOf s (exec i s)

/-- A core with four bytes of memory and the image `01 02 03` that fills it from address 1 on. -/
def tinyConfig : Config :=
  { memSize := 4, romBase := 1, heapBase := 4, opnum := OpNum.default }

/-- Its state after reset. -/
def tiny : State :=
  State.resetWith tinyConfig [1#8, 2#8, 3#8]

/-! ## The checks refuse what is ill-formed (00_scope.md R5, 30_encoding.md R73, 70_reset_and_hazards.md R282) -/

theorem test_fields_accept : ({ a := 7, b := 7, imm8 := 255, imm11 := 2047 } : RawFields).inRange = true := by decide
theorem test_fields_refuse_a : ({ a := 8 } : RawFields).inRange = false := by decide
theorem test_fields_refuse_b : ({ b := 9 } : RawFields).inRange = false := by decide
theorem test_fields_refuse_imm8 : ({ imm8 := 256 } : RawFields).inRange = false := by decide
theorem test_fields_refuse_imm11 : ({ imm11 := 2048 } : RawFields).inRange = false := by decide
theorem test_instr_wellFormed : (Instr.jl 2047).wellFormed = true := by decide
theorem test_config_accept : Config.t0.wf = true ∧ tinyConfig.wf = true := by decide
theorem test_config_refuse_small : ({ Config.t0 with memSize := 1, romBase := 0, heapBase := 1 } : Config).wf = false := by
  decide
theorem test_config_refuse_large : ({ Config.t0 with memSize := 65537 } : Config).wf = false := by decide
theorem test_config_refuse_heap_at_rom : ({ Config.t0 with heapBase := 0x0100 } : Config).wf = false := by decide
theorem test_config_refuse_heap_outside : ({ Config.t0 with memSize := 0x07FF } : Config).wf = false := by decide
theorem test_config_refuse_shared_number :
    ({ Config.t0 with opnum := { OpNum.default with halt := 0 } } : Config).wf = false := by decide
theorem test_image_fits : tinyConfig.imageFits [1#8, 2#8, 3#8] = true ∧ tinyConfig.imageFits [1#8, 2#8, 3#8, 4#8] = false := by
  decide
theorem test_memory_wf :
    Memory.wf [(1, 2#8), (3, 4#8)] = true ∧ Memory.wf [(3, 4#8), (1, 2#8)] = false ∧ Memory.wf [(1, 0#8)] = false := by decide

/-! ## Decoding, from the encoding of each instruction (30_encoding.md R71, R80, R81): the bits of `B` or the immediate, `A`, the
opcode -/

theorem test_decode_move :
    decode OpNum.default (0b00000#5 ++ 0b010#3 ++ 0b001#3 ++ 0b00000#5) = .ok (.mov 1 2) ∧
    decode OpNum.default (0b11001000#8 ++ 0b011#3 ++ 0b00001#5) = .ok (.movi 3 200) := by decide
theorem test_decode_compare_branch :
    decode OpNum.default (0b00000#5 ++ 0b010#3 ++ 0b001#3 ++ 0b00010#5) = .ok (.cmp 1 2) ∧
    decode OpNum.default (0b00100001110#11 ++ 0b00011#5) = .ok (.je 270) ∧
    decode OpNum.default (0b00100001110#11 ++ 0b00100#5) = .ok (.jn 270) ∧
    decode OpNum.default (0b00100001110#11 ++ 0b00101#5) = .ok (.jg 270) ∧
    decode OpNum.default (0b00100001110#11 ++ 0b00110#5) = .ok (.jl 270) := by decide
theorem test_decode_arithmetic :
    decode OpNum.default (0b00000#5 ++ 0b010#3 ++ 0b001#3 ++ 0b00111#5) = .ok (.add 1 2) ∧
    decode OpNum.default (0b11111111#8 ++ 0b001#3 ++ 0b01000#5) = .ok (.addi 1 255) ∧
    decode OpNum.default (0b00000#5 ++ 0b010#3 ++ 0b001#3 ++ 0b01001#5) = .ok (.sub 1 2) ∧
    decode OpNum.default (0b00000001#8 ++ 0b001#3 ++ 0b01010#5) = .ok (.subi 1 1) ∧
    decode OpNum.default (0b00000#5 ++ 0b010#3 ++ 0b001#3 ++ 0b01011#5) = .ok (.mod 1 2) ∧
    decode OpNum.default (0b00001010#8 ++ 0b001#3 ++ 0b01100#5) = .ok (.modi 1 10) := by decide
theorem test_decode_logic_shift :
    decode OpNum.default (0b00000#5 ++ 0b010#3 ++ 0b001#3 ++ 0b01101#5) = .ok (.and 1 2) ∧
    decode OpNum.default (0b00000#5 ++ 0b010#3 ++ 0b001#3 ++ 0b01110#5) = .ok (.or 1 2) ∧
    decode OpNum.default (0b00000#5 ++ 0b010#3 ++ 0b001#3 ++ 0b01111#5) = .ok (.xor 1 2) ∧
    decode OpNum.default (0b00000#5 ++ 0b010#3 ++ 0b001#3 ++ 0b10000#5) = .ok (.bsl 1 2) ∧
    decode OpNum.default (0b00000#5 ++ 0b010#3 ++ 0b001#3 ++ 0b10001#5) = .ok (.bsr 1 2) ∧
    decode OpNum.default (0b00000100#8 ++ 0b001#3 ++ 0b10010#5) = .ok (.bsli 1 4) ∧
    decode OpNum.default (0b00000100#8 ++ 0b001#3 ++ 0b10011#5) = .ok (.bsri 1 4) := by decide
theorem test_decode_memory :
    decode OpNum.default (0b00000#5 ++ 0b010#3 ++ 0b001#3 ++ 0b10100#5) = .ok (.ldw 1 2) ∧
    decode OpNum.default (0b00000#5 ++ 0b010#3 ++ 0b001#3 ++ 0b10101#5) = .ok (.ldb 1 2) ∧
    decode OpNum.default (0b00000#5 ++ 0b010#3 ++ 0b001#3 ++ 0b10110#5) = .ok (.stw 1 2) ∧
    decode OpNum.default (0b00000#5 ++ 0b010#3 ++ 0b001#3 ++ 0b10111#5) = .ok (.stb 1 2) := by decide
theorem test_decode_stack_system :
    decode OpNum.default (0b00000101010#11 ++ 0b11000#5) = .ok (.push 42) ∧
    decode OpNum.default (0b00000000#8 ++ 0b100#3 ++ 0b11001#5) = .ok (.pop 4) ∧
    decode OpNum.default (0b00000000000#11 ++ 0b11010#5) = .ok .halt := by decide
/-- The rows of 95_test_vectors.md 2.1 with ignored bits set, and the illegal ones. -/
theorem test_decode_ignored_and_illegal :
    decode OpNum.default 0x8000#16 = .ok (.mov 0 0) ∧
    decode OpNum.default 0xABCD#16 = .ok (.and 6 3) ∧
    decode OpNum.default 0xFF99#16 = .ok (.pop 4) ∧
    decode OpNum.default 0xFFFA#16 = .ok .halt ∧
    decode OpNum.default 0x07FF#16 = .error (.illegalInstruction 0x07FF#16) := by decide
/-- 95_test_vectors.md 2.2. -/
theorem test_encode :
    encode OpNum.default (.mov 1 2) = 0x0220#16 ∧ encode OpNum.default (.movi 3 200) = 0xC861#16 ∧
    encode OpNum.default (.jl 270) = 0x21C6#16 ∧ encode OpNum.default (.push 2047) = 0xFFF8#16 ∧
    encode OpNum.default (.pop 4) = 0x0099#16 ∧ encode OpNum.default .halt = 0x001A#16 := by decide
/-- With another numbering the same fields, another opcode (R81). -/
theorem test_other_numbering :
    decode { OpNum.default with mov := 31 } 0x023F#16 = .ok (.mov 1 2) ∧
    decode { OpNum.default with mov := 31 } 0x0220#16 = .error (.illegalInstruction 0x0220#16) := by decide
theorem test_decodeTableWord :
    decodeTableWord 16 0x0A2C = some (.modi 1 10) ∧ decodeTableWord 16 0x001F = none := by decide
theorem test_decodeBytes :
    decodeBytes OpNum.default [0x61#8, 0xC8#8, 0x1A#8] = .ok (.movi 3 200, [0x1A#8]) ∧
    decodeBytes OpNum.default [0x61#8] = .error .truncated := by decide

/-! ## Assembly notation (95_test_vectors.md 2.2, S6, S7) -/

theorem test_assemble_lines :
    assembleLine "movi r3, 200".toList = some (.movi 3 200) ∧
    assembleLine "mov r1, 5".toList = some (.movi 1 5) ∧
    assembleLine "addi r1, -1".toList = some (.addi 1 255) ∧
    assembleLine "je 2049".toList = some (.je 1) ∧
    assembleLine "hlt".toList = some .halt ∧
    assembleLine "MOVI r3, 200".toList = none ∧
    assembleLine "mov r8, r1".toList = none := by decide
/-- 30_encoding.md R98: reading stops at the first character that is no digit; without a digit there is no literal (log 27). -/
theorem test_assemble_literal_end :
    assembleLine "addi r1, 5x".toList = some (.addi 1 5) ∧
    assembleLine "add r1, -1, 7".toList = some (.addi 1 255) ∧
    assembleLine "push 42 0".toList = some (.push 42) ∧
    assembleLine "addi r1, x5".toList = none ∧
    assembleLine "addi r1, -".toList = none := by decide
/-- The image of S4. -/
theorem test_assemble_image :
    assembleImage OpNum.default "movi r3, 200\nhlt\n".toList = some [0x61#8, 0xC8#8, 0x1A#8, 0x00#8] := by decide

/-! ## One step (95_test_vectors.md Part 2; the row is named at each) -/

/-- M1, M7. -/
theorem test_mov :
    (after (((start 0x0220).setReg 1 0x1111).setReg 2 0xBEEF)).reg 1 = 0xBEEF ∧
    (after (((start 0xFA20).setReg 1 0x1111).setReg 2 0xBEEF)).reg 1 = 0xBEEF ∧
    (after (start 0x0220)).pc = 0x0102 := by decide
/-- M4, M6. -/
theorem test_movi :
    (after ((start 0xC861).setReg 3 0xFFFF)).reg 3 = 0x00C8 ∧ (after (start 0xFF01)).reg 0 = 0x00FF := by decide
/-- C2, C3, C4. -/
theorem test_cmp :
    (after (((start 0x0222).setReg 1 7).setReg 2 5)).reg 0 = 3 ∧
    (after ((((start 0x0222).setReg 1 5).setReg 2 7).setReg 0 0x9999)).reg 0 = 0 ∧
    (after ((start 0x0222).setReg 1 0xFFFF)).reg 0 = 0 := by decide
/-- C10, C11. -/
theorem test_cmp_reads_x0_first :
    (after (((start 0x0102).setReg 0 3).setReg 1 9)).reg 0 = 0 ∧
    (after (((start 0x0022).setReg 0 3).setReg 1 9)).reg 0 = 7 := by decide
/-- The JE column of 2.5. -/
theorem test_je :
    (after ((start 0x21C3).setReg 0 1)).pc = 0x0110 ∧ (after (start 0x21C3)).pc = 0x0102 ∧
    (after ((start 0x21C3).setReg 0 2)).pc = 0x0102 := by decide
/-- The JN column of 2.5, and J2. -/
theorem test_jn :
    (after (start 0x21C4)).pc = 0x0110 ∧ (after ((start 0x21C4).setReg 0 1)).pc = 0x0102 ∧
    (after (start 0xFFE4)).pc = 0x0801 := by decide
/-- The JG column of 2.5, and J3. -/
theorem test_jg :
    (after ((start 0x21C5).setReg 0 1)).pc = 0x0102 ∧ (after ((start 0x21C5).setReg 0 0x8000)).pc = 0x0110 ∧
    (after ((start 0x2025).setReg 0 2)).pc = 0x0103 := by decide
/-- The JL column of 2.5. -/
theorem test_jl :
    (after (start 0x21C6)).pc = 0x0110 ∧ (after ((start 0x21C6).setReg 0 1)).pc = 0x0102 ∧
    (after ((start 0x21C6).setReg 0 0x7FFF)).pc = 0x0102 ∧ (after ((start 0x21C6).setReg 0 0x8000)).pc = 0x0110 := by decide
/-- A1, A3. -/
theorem test_add :
    (after (((start 0x0227).setReg 1 0xFFFF).setReg 2 1)).reg 1 = 0 ∧
    (after ((start 0x0127).setReg 1 0x8001)).reg 1 = 2 := by decide
/-- A5, A6. -/
theorem test_addi :
    (after (start 0xFF28)).reg 1 = 0x00FF ∧ (after ((start 0x0128).setReg 1 0xFFFF)).reg 1 = 0 := by decide
/-- A8, A10. -/
theorem test_sub :
    (after ((start 0x0229).setReg 2 1)).reg 1 = 0xFFFF ∧ (after ((start 0x0129).setReg 1 0x5555)).reg 1 = 0 := by decide
/-- A11, A12. -/
theorem test_subi :
    (after (start 0x012A)).reg 1 = 0xFFFF ∧ (after ((start 0xFF2A).setReg 1 0x0100)).reg 1 = 1 := by decide
/-- A14. -/
theorem test_mod : (after (((start 0x022B).setReg 1 0xFFFF).setReg 2 0x8000)).reg 1 = 0x7FFF := by decide
/-- A17. -/
theorem test_mod_by_zero :
    (after ((start 0x022B).setReg 1 77)).fault = some { cause := .divideByZero, info := 0x022B } ∧
    (after ((start 0x022B).setReg 1 77)).reg 1 = 77 ∧ (after ((start 0x022B).setReg 1 77)).pc = 0x0100 := by decide
/-- A19. -/
theorem test_modi : (after ((start 0x0A2C).setReg 1 12345)).reg 1 = 5 := by decide
/-- A22. -/
theorem test_modi_by_zero :
    (after ((start 0x002C).setReg 1 999)).fault = some { cause := .divideByZero, info := 0x002C } ∧
    (after ((start 0x002C).setReg 1 999)).reg 1 = 999 := by decide
/-- L1 to L3. -/
theorem test_logic :
    (after (((start 0x022D).setReg 1 0xF0F0).setReg 2 0xFF00)).reg 1 = 0xF000 ∧
    (after (((start 0x022E).setReg 1 0xF0F0).setReg 2 0x0F00)).reg 1 = 0xFFF0 ∧
    (after (((start 0x022F).setReg 1 0xF0F0).setReg 2 0xFFFF)).reg 1 = 0x0F0F := by decide
/-- 2.8, BSL: amounts 15, 16 and 256; H1. -/
theorem test_bsl :
    (after (((start 0x0230).setReg 1 0x8421).setReg 2 15)).reg 1 = 0x8000 ∧
    (after (((start 0x0230).setReg 1 0x8421).setReg 2 16)).reg 1 = 0 ∧
    (after (((start 0x0230).setReg 1 0x8421).setReg 2 256)).reg 1 = 0 ∧
    (after ((start 0x0130).setReg 1 3)).reg 1 = 0x0018 := by decide
/-- 2.8, BSR: amounts 1 and 256. -/
theorem test_bsr :
    (after (((start 0x0231).setReg 1 0x8421).setReg 2 1)).reg 1 = 0x4210 ∧
    (after (((start 0x0231).setReg 1 0x8421).setReg 2 256)).reg 1 = 0 := by decide
/-- 2.8, BSLI: amounts 8 and 16. -/
theorem test_bsli :
    (after ((start 0x0832).setReg 1 0x8421)).reg 1 = 0x2100 ∧ (after ((start 0x1032).setReg 1 0x8421)).reg 1 = 0 := by decide
/-- 2.8, BSRI: amounts 8 and 255; H4. -/
theorem test_bsri :
    (after ((start 0x0833).setReg 1 0x8421)).reg 1 = 0x0084 ∧ (after ((start 0xFF33).setReg 1 0x8421)).reg 1 = 0 ∧
    (after ((start 0x0F33).setReg 1 0xFFFF)).reg 1 = 1 := by decide
/-- D1, D4. -/
theorem test_ldw :
    (after (poke (poke ((start 0x0234).setReg 2 0x0800) 0x0800 0x34) 0x0801 0x12)).reg 1 = 0x1234 ∧
    (after (poke (poke ((start 0x0134).setReg 1 0x0800) 0x0800 0x34) 0x0801 0x12)).reg 1 = 0x1234 := by decide
/-- D6, D18. -/
theorem test_ldw_out_of_range :
    (after ((start 0x0234).setReg 2 0xFFFF)).fault = some { cause := .loadOutOfRange, info := 0xFFFF } ∧
    (after ((startSmall 0x0234).setReg 2 0x0FFF)).fault = some { cause := .loadOutOfRange, info := 0x0FFF } := by decide
/-- D3, D7. -/
theorem test_ldb :
    (after (poke (((start 0x0235).setReg 1 0xFFFF).setReg 2 0x0800) 0x0800 0x80)).reg 1 = 0x0080 ∧
    (after (poke ((start 0x0235).setReg 2 0xFFFF) 0xFFFF 0x55)).reg 1 = 0x0055 := by decide
/-- D16. -/
theorem test_ldb_out_of_range :
    (after ((startSmall 0x0235).setReg 2 0x1000)).fault = some { cause := .loadOutOfRange, info := 0x1000 } := by decide
/-- D9. -/
theorem test_stw :
    (after (((start 0x0236).setReg 1 0xBEEF).setReg 2 0x0800)).byteAt 0x0800 = 0xEF ∧
    (after (((start 0x0236).setReg 1 0xBEEF).setReg 2 0x0800)).byteAt 0x0801 = 0xBE := by decide
/-- D13. -/
theorem test_stw_out_of_range :
    (after (((start 0x0236).setReg 1 0xBEEF).setReg 2 0xFFFF)).fault = some { cause := .storeOutOfRange, info := 0xFFFF } ∧
    (after (((start 0x0236).setReg 1 0xBEEF).setReg 2 0xFFFF)).byteAt 0xFFFF = 0 := by decide
/-- D11. -/
theorem test_stb :
    (after (poke (((start 0x0237).setReg 1 0xBEEF).setReg 2 0x0800) 0x0801 0x22)).byteAt 0x0800 = 0xEF ∧
    (after (poke (((start 0x0237).setReg 1 0xBEEF).setReg 2 0x0800) 0x0801 0x22)).byteAt 0x0801 = 0x22 := by decide
/-- D17. -/
theorem test_stb_out_of_range :
    (after ((startSmall 0x0237).setReg 2 0x1000)).fault = some { cause := .storeOutOfRange, info := 0x1000 } := by decide
/-- K2. -/
theorem test_push :
    (after (poke (poke (start 0xFFF8) 0 0x11) 1 0x22)).byteAt 0 = 0xFF ∧
    (after (poke (poke (start 0xFFF8) 0 0x11) 1 0x22)).byteAt 1 = 0x07 ∧ (after (start 0xFFF8)).sp = 0 := by decide
/-- K5, K6. -/
theorem test_pop :
    (after (poke (poke (start 0x0019) 0 0xEF) 1 0xBE)).reg 0 = 0xBEEF ∧
    (after (poke ((start 0xFF99).setReg 4 0x9999) 0 0x2A)).reg 4 = 0x002A := by decide
/-- E1. -/
theorem test_halt :
    (after (start 0x001A)).runState = .halted ∧ (after (start 0x001A)).pc = 0x0102 ∧
    (after (after (start 0x001A))) = after (start 0x001A) := by decide
/-- E3, E8. -/
theorem test_illegal :
    (after (start 0x001B)).runState = .faulted { cause := .illegalInstruction, info := 0x001B } ∧
    (after (start 0xFFFF)).fault = some { cause := .illegalInstruction, info := 0xFFFF } ∧
    (after (start 0x001B)).pc = 0x0100 ∧ (after (start 0x001B)).halt = false := by decide
/-- E10, E11, E13. -/
theorem test_pc_edges :
    (after (startAt 0xFFFE 0x0921)).pc = 0 ∧ (after (startAt 0xFFFE 0x0921)).reg 1 = 9 ∧
    (after (startAt 0xFFFF 0)).fault = some { cause := .fetchOutOfRange, info := 0xFFFF } ∧
    (after ((startSmall 0).setPc 0x0FFF)).fault = some { cause := .fetchOutOfRange, info := 0x0FFF } := by decide
/-- 70_reset_and_hazards.md R282: an image that fits starts a core, one byte more is refused. -/
theorem test_launch :
    State.launch tinyConfig [1#8, 2#8, 3#8] = .next tiny ∧
    State.launch tinyConfig [1#8, 2#8, 3#8, 4#8] = .refused .imageDoesNotFit ∧
    State.launch { tinyConfig with memSize := 1 } [] = .refused .badParameters := ⟨rfl, rfl, rfl⟩
/-- 10_state.md R33: the outputs after E3. -/
theorem test_host_view :
    (after (start 0x001B)).hostView.faulted = true ∧ (after (start 0x001B)).hostView.faultCause = 1 ∧
    (after (start 0x001B)).hostView.faultInfo = some 0x001B ∧ (after (start 0x001A)).hostView.halted = true := by decide
/-- 40_cycle_and_dispatch.md R114: the events of D9. -/
theorem test_events :
    stepEvents (((start 0x0236).setReg 1 0xBEEF).setReg 2 0x0800) =
      [.fetchRead 0x0100 0x0236, .checksPassed, .dataWrite 0x0800 .word 0xBEEF, .advance] := by decide

/-! ## Witnesses: concrete cases that meet the hypotheses of each statement that has any -/

/-- A halted state and a faulted one. -/
def halted : State :=
  after (start 0x001A)

def faulted : State :=
  after (start 0x001B)

theorem witness_StepRunsDecodedInstruction :
    (start 0x0220).runState = .running ∧ (start 0x0220).pc.toNat + 1 < (start 0x0220).cfg.memSize ∧
    (0x0220#16).toNat =
      ((start 0x0220).byteAt (start 0x0220).pc.toNat).toNat + 256 * ((start 0x0220).byteAt ((start 0x0220).pc.toNat + 1)).toNat ∧
    decode (start 0x0220).cfg.opnum 0x0220#16 = .ok (.mov 1 2) := by decide
theorem witness_StepFollowsTheStages_fetch_fault :
    (startAt 0xFFFF 0).runState = .running ∧ (startAt 0xFFFF 0).cfg.opnum.injective = true ∧
    (startAt 0xFFFF 0).cfg.memSize ≤ (startAt 0xFFFF 0).pc.toNat + 1 := by decide
theorem witness_StepFollowsTheStages_last_word :
    (startAt 0xFFFE 0x0921).runState = .running ∧ (startAt 0xFFFE 0x0921).cfg.opnum.injective = true ∧
    (startAt 0xFFFE 0x0921).pc.toNat + 1 < (startAt 0xFFFE 0x0921).cfg.memSize := by decide
theorem witness_opcode_assigned : OpNum.default.num .halt = fieldOpcode 0x001A#16 := by decide
theorem witness_opcode_unassigned : ∀ k, OpNum.default.num k ≠ fieldOpcode 0x001B#16 := by
  intro k
  cases k <;> decide
theorem witness_StoppedStatesNeverChange : halted.runState ≠ .running ∧ faulted.runState ≠ .running := by decide
/-- `injective`, for every statement about every numbering, and a word that decodes. -/
theorem witness_DecodeAndEncodeAgree :
    OpNum.default.injective = true ∧ decode OpNum.default 0xABCD#16 = .ok (.and 6 3) := by decide
theorem witness_IgnoredBitsAreNotExamined :
    decode OpNum.default 0xABCD#16 = .ok (.and 6 3) ∧ clearIgnored .rr 0x03CD#16 = clearIgnored .rr 0xABCD#16 := by decide
theorem witness_DispatchIsByOpcodeAlone :
    (start 0xFFFA).cfg.opnum.injective = true ∧ (start 0xFFFA).runState = .running ∧
    (start 0xFFFA).fetch = some 0xFFFA#16 ∧
    (0xFFFA#16 &&& 0x001F#16).toNat = ((start 0xFFFA).cfg.opnum.num .halt).toNat := by decide
theorem witness_UnassignedOpcodesAreIllegal :
    (start 0x001B).runState = .running ∧ (start 0x001B).fetch = some 0x001B#16 ∧
    ∀ k, (start 0x001B).cfg.opnum.num k ≠ fieldOpcode 0x001B#16 :=
  ⟨by decide, by decide, witness_opcode_unassigned⟩
/-- For the statements about reset: the image reaches exactly to the end of memory, and one byte lies outside it. -/
theorem witness_ResetLeavesTheStatedValues :
    tinyConfig.wf = true ∧ tinyConfig.imageFits [1#8, 2#8, 3#8] = true ∧ 2 < [1#8, 2#8, 3#8].length ∧ 0 < tinyConfig.romBase ∧
    tinyConfig.romBase + [1#8, 2#8, 3#8].length ≤ 4 := by decide
theorem witness_LaunchTakesOnlyFittingImages :
    tinyConfig.wf = true ∧ tinyConfig.romBase + [1#8, 2#8, 3#8].length ≤ tinyConfig.memSize ∧
    tinyConfig.memSize < tinyConfig.romBase + [1#8, 2#8, 3#8, 4#8].length := by decide
theorem witness_ResetWithMeetsTheInvariant :
    Config.t0.wf = true ∧ Config.t0.imageFits [] = true := by decide
theorem witness_StepKeepsTheInvariant : tiny.Inv ∧ step tiny = .next (after tiny) :=
  ⟨⟨by decide, by decide, by decide, by decide, by decide⟩, rfl⟩
theorem witness_MixedWidthAccessesAgree_word :
    State.reset.cfg.memSize ≤ 65536 ∧
    State.reset.memWrite 0xFFFE .word 0xBEEF = some (poke (poke State.reset 0xFFFE 0xEF) 0xFFFF 0xBE) := ⟨by decide, rfl⟩
theorem witness_MixedWidthAccessesAgree_bytes :
    (0xFFFE#16).toNat + 1 < 65536 ∧ State.reset.memWrite 0xFFFE .byte 0xBEEF = some (poke State.reset 0xFFFE 0xEF) ∧
    (poke State.reset 0xFFFE 0xEF).memWrite (0xFFFE#16 + 1#16) .byte 0xBE =
      some (poke (poke State.reset 0xFFFE 0xEF) 0xFFFF 0xBE) := ⟨by decide, rfl, rfl⟩
theorem witness_CanonicalMemoriesWithEqualBytesAreEqual :
    Memory.wf [(1, 2#8), (65535, 4#8)] = true ∧
    ∀ a, Memory.read [(1, 2#8), (65535, 4#8)] a = Memory.read ((Memory.write [(65535, 4#8)] 1 2#8)) a :=
  ⟨by decide, fun _ => rfl⟩
theorem witness_StoresAreSeenByTheNextFetch :
    (∃ t, exec (.stw 1 2) ((start 0x0236).setReg 2 0xFFFE) = .next t) ∧
    (((start 0x0236).setReg 2 0xFFFE).reg 2).toNat + 1 < ((start 0x0236).setReg 2 0xFFFE).cfg.memSize ∧
    (∃ t, exec (.stb 1 2) ((start 0x0236).setReg 2 0xFFFE) = .next t) ∧
    (∃ t, exec (.push 42) tiny = .next t) ∧ tiny.sp.toNat + 1 < tiny.cfg.memSize :=
  ⟨⟨_, rfl⟩, by decide, ⟨_, rfl⟩, ⟨_, rfl⟩, by decide⟩
/-- A register on no port, one on the write port alone, one on a read port alone. -/
theorem witness_RegistersReadAndWrittenAreThoseOfThePorts :
    (∃ t, exec (.mov 1 2) (start 0x0220) = .next t) ∧
    (writePort (.mov 1 2) ≠ some 7 ∧ readPort1 (.mov 1 2) ≠ some 7 ∧ readPort2 (.mov 1 2) ≠ some 7) ∧
    (writePort (.mov 1 2) = some 1 ∧ readPort1 (.mov 1 2) ≠ some 1 ∧ readPort2 (.mov 1 2) ≠ some 1) ∧
    (writePort (.mov 1 2) ≠ some 2 ∧ readPort2 (.mov 1 2) = some 2) :=
  ⟨⟨_, rfl⟩, by decide, by decide, by decide⟩
/-- Bytes 0x0800 and 0x0801 are stored; the bytes just outside them meet the memory clause. -/
theorem witness_InstructionsChangeOnlyWhatTheirRulesAssign :
    (∃ t, exec (.stw 1 2) ((start 0x0236).setReg 2 0x0800) = .next t ∧ t.fault = none) ∧
    ((start 0x0236).setReg 2 0x0800).fault = none ∧
    (∀ n : Nat, n = 0x07FF ∨ n = 0x0802 →
      ∀ a w v, dataAccess ((start 0x0236).setReg 2 0x0800) (.stw 1 2) = some (.write a w v) → n < a.toNat ∨ a.toNat + w.bytes ≤ n) ∧
    (∀ r, writePort (.stw 1 2) ≠ some r) ∧ Instr.stw 1 2 ≠ .halt ∧ (∀ imm, ¬ IsJump (.stw 1 2) imm) := by
  refine ⟨⟨_, rfl, rfl⟩, by decide, ?_, by decide, by decide, fun imm h => by simp [IsJump] at h⟩
  intro n hn a w v h
  cases h
  show n < 2048 ∨ 2048 + 2 ≤ n
  omega
theorem witness_HaltFlagIsMonotonic :
    (∃ t, exec .halt (start 0x001A) = .next t) ∧
    step halted = .next halted ∧ halted.halt = true ∧
    step (start 0x001A) = .next halted ∧ (start 0x001A).halt = false ∧ tiny.Inv :=
  ⟨⟨_, rfl⟩, rfl, by decide, rfl, by decide, witness_StepKeepsTheInvariant.1⟩
/-- A step that does not fault and one that does, from `Running`. -/
theorem witness_PcAfterAStepFollowsTheTable :
    (start 0x001A).runState = .running ∧ step (start 0x001A) = .next halted ∧ halted.fault = none ∧
    (start 0x001B).runState = .running ∧ step (start 0x001B) = .next faulted ∧
    faulted.fault = some { cause := .illegalInstruction, info := 0x001B } := ⟨by decide, rfl, by decide, by decide, rfl, by decide⟩
/-- The lowest and the highest address a jump reaches, and a step that advances. -/
theorem witness_JumpsReachOnlyLowAddresses :
    (start 0x0004).runState = .running ∧ step (start 0x0004) = .next (after (start 0x0004)) ∧
    (after (start 0x0004)).fault = none ∧ (after (start 0x0004)).pc.toNat = 2 ∧
    (after (start 0xFFE4)).fault = none ∧ (after (start 0xFFE4)).pc.toNat = 2049 ∧
    (after (start 0x0220)).fault = none ∧ (after (start 0x0220)).pc.toNat = 0x0102 :=
  ⟨by decide, rfl, by decide, by decide, by decide, by decide, by decide, by decide⟩
/-- J4, with a memory that ends one byte after the target. -/
theorem witness_JumpOutOfRangeFaultsAtTheNextFetch :
    IsJump (.jn 2047) 2047 ∧
    ({ start 0xFFE4 with cfg := { Config.t0 with memSize := 2050 } } : State).runState = .running ∧
    pcAfter { start 0xFFE4 with cfg := { Config.t0 with memSize := 2050 } } (.jn 2047) = (2047#11).toNat + 2 ∧
    2050 ≤ (2047#11).toNat + 3 :=
  ⟨.inr (.inl rfl), by decide, by decide, by decide⟩
/-- Both directions of the table: a step that meets a row and a step that meets none. -/
theorem witness_FaultsAreExactlyThoseOfTheTable :
    (start 0x001B).runState = .running ∧ step (start 0x001B) = .next faulted ∧ faulted.fault ≠ none ∧
    (start 0x001A).runState = .running ∧ step (start 0x001A) = .next halted ∧ halted.fault = none :=
  ⟨by decide, rfl, by decide, by decide, rfl, by decide⟩
theorem witness_FaultsArePrecise :
    (start 0x001B).runState = .running ∧ step (start 0x001B) = .next faulted ∧
    faulted.fault = some { cause := .illegalInstruction, info := 0x001B } := ⟨by decide, rfl, by decide⟩
/-- `cmp` on the pair that wraps. -/
theorem witness_CompareCodeMisreportsInTwoRanges :
    ∃ t, exec (.cmp 1 2) ((start 0x0222).setReg 1 0xFFFF) = .next t ∧ t.reg 0 = 0 := ⟨_, rfl, by decide⟩
/-- A divisor that is not 0; divisors that are; the two immediate forms. -/
theorem witness_RemainderOrDivideByZero :
    ((start 0x022B).setReg 2 1).reg 2 ≠ 0#16 ∧
    ((start 0x022B).runState = .running ∧ (start 0x022B).fetch = some 0x022B#16 ∧
      decode (start 0x022B).cfg.opnum 0x022B#16 = .ok (.mod 1 2) ∧ (start 0x022B).reg 2 = 0#16) ∧
    (1#8 : Imm8) ≠ 0#8 ∧
    ((start 0x002C).runState = .running ∧ (start 0x002C).fetch = some 0x002C#16 ∧
      decode (start 0x002C).cfg.opnum 0x002C#16 = .ok (.modi 1 0#8)) := by decide
/-- The last address in range and the first out of range, for both widths. -/
theorem witness_LoadsReadMemory_StoresWriteMemory :
    ((startSmall 0x0234).setReg 2 0x0FFE |>.reg 2).toNat + 1 < (startSmall 0x0234).cfg.memSize ∧
    (startSmall 0x0234).cfg.memSize ≤ ((startSmall 0x0234).setReg 2 0x0FFF |>.reg 2).toNat + 1 ∧
    ((startSmall 0x0235).setReg 2 0x0FFF |>.reg 2).toNat < (startSmall 0x0235).cfg.memSize ∧
    (startSmall 0x0235).cfg.memSize ≤ ((startSmall 0x0235).setReg 2 0x1000 |>.reg 2).toNat := by decide
/-- The slot in range, and, in a state that no run reaches, out of range. -/
theorem witness_PushWritesTheSlot_PopReadsTheSlot :
    tiny.sp.toNat + 1 < tiny.cfg.memSize ∧
    ({ tiny with sp := 2#16 } : State).sp.toNat + 1 < tiny.cfg.memSize ∧
    tiny.cfg.memSize ≤ ({ tiny with sp := 3#16 } : State).sp.toNat + 1 := by decide
theorem witness_PushAndPopShareOneSlot : (start 0x0038).sp.toNat + 1 < (start 0x0038).cfg.memSize := by decide
/-- A digit, a rest that begins with none, an empty rest, and the two ways to spell an immediate instruction. -/
theorem witness_LiteralsEndAtTheFirstNonDigit :
    (['5', '9'] ≠ [] ∧ (∀ c ∈ ['5', '9'], isDigit c = true)) ∧
    (∀ c ∈ ['x', '9'].head?, isDigit c = false) ∧ (∀ c ∈ ([] : List Char).head?, isDigit c = false) ∧
    Op.format .addi = .ri ∧ literalForm .add = some .addi ∧ isDigit 'x' = false := by
  refine ⟨⟨by decide, by simp [isDigit]⟩, by simp [isDigit], by simp, by decide, by decide, by decide⟩
theorem witness_HaltStopsTheCore : (start 0x001A).runState = .running := by decide

end Sys2Proof.Tests
end

section
/-! Runs from a state that is not `Running` (00_scope.md R7, 40_cycle_and_dispatch.md R111). -/

namespace Sys2Proof.Machine

theorem run_succ_of_step (M : Host.Core) {s t : M.State} (h : M.step s = .next t) (k : Nat) :
    M.run (k + 1) s = M.run k t := by
  rw [Host.Core.run, h]

theorem step_of_not_running {s : State} (h : s.runState ≠ .running) : step s = .next s := by
  obtain ⟨-, hstep⟩ | ⟨hr, -⟩ | ⟨_, _, hr, -⟩ | ⟨_, _, hr, -⟩ := step_cases s
  · exact hstep
  all_goals exact absurd hr h

theorem run_of_not_running {s : State} (h : s.runState ≠ .running) (k : Nat) :
    Host.Core.run Sys2Proof.core k s = .next s := by
  induction k with
  | zero => rfl
  | succ k ih => exact (run_succ_of_step Sys2Proof.core (step_of_not_running h) k).trans ih

/-- Settles O4: a stopped state is a fixed point of the step, so by induction on the number of steps of every run. -/
theorem stoppedStatesNeverChange : Obligations.StoppedStatesNeverChange :=
  fun _ k h => run_of_not_running h k

end Sys2Proof.Machine
end

section
/-! The datapath's events give the instruction's meaning, one lemma for each shared shape of a meaning (10_state.md R30 to R32,
40_cycle_and_dispatch.md R114). -/

namespace Sys2Proof.Machine

/-! ## The execute unit's exact numbers are the operations' bit vectors (R13, R160) -/

theorem ofNat_eq_of_toNat_mod {v : Word} {n : Nat} (h : v.toNat = n % 65536) : BitVec.ofNat 16 n = v :=
  BitVec.eq_of_toNat_eq (h ▸ BitVec.toNat_ofNat n 16)

theorem ofNat_eq_of_toNat {v : Word} {n : Nat} (h : v.toNat = n) : BitVec.ofNat 16 n = v :=
  h ▸ BitVec.ofNat_toNat 16 v |>.trans (BitVec.setWidth_eq v)

theorem ofInt_toNat_sub_toNat (p q : Word) : BitVec.ofInt 16 ((p.toNat : Int) - (q.toNat : Int)) = p - q := by
  have := p.isLt
  have := q.isLt
  apply BitVec.eq_of_toNat_eq
  rw [BitVec.toNat_ofInt, BitVec.toNat_sub]
  omega

theorem compareCode_eq (p q : Word) :
    (if p.toNat < q.toNat then 0#16 else BitVec.ofNat 16 (p.toNat - q.toNat + 1)) = compareCode p q := by
  apply BitVec.eq_of_toNat_eq
  rw [toNat_compareCode]
  split <;> simp

theorem ofNat_mul_two_pow (p : Word) (n : Nat) : BitVec.ofNat 16 (p.toNat * 2 ^ n) = shiftLeft p n := by
  apply ofNat_eq_of_toNat_mod
  rw [toNat_shiftLeft]
  split
  · next h =>
    have hdvd : 65536 ∣ 2 ^ n := pow_dvd_pow 2 h
    exact (Nat.mod_eq_zero_of_dvd (hdvd.mul_left p.toNat)).symm
  · rfl

theorem ofNat_div_two_pow (p : Word) (n : Nat) : BitVec.ofNat 16 (p.toNat / 2 ^ n) = shiftRight p n := by
  have hp := p.isLt
  apply ofNat_eq_of_toNat
  rw [toNat_shiftRight]
  split
  · next h => rw [Nat.div_eq_of_lt (hp.trans_le (Nat.pow_le_pow_right (by decide) h))]
  · rfl

/-! ## Replaying events -/

@[simp] theorem State.replay_nil (s : State) : s.replay [] = s := rfl

@[simp] theorem State.replay_cons (s : State) (e : Event) (es : List Event) :
    s.replay (e :: es) = (s.applyEvent e).replay es := rfl

@[simp] theorem State.replay_append (s : State) (es fs : List Event) :
    s.replay (es ++ fs) = (s.replay es).replay fs :=
  List.foldl_append

/-- The events (c) to (f) of R114: what an instruction that passes its checks does before the advance. -/
def workEvents (s : State) (i : Instr) : List Event :=
  dataEvents s i ++ regEvents s i ++ pcEvents s i ++ haltEvents i

theorem instrEvents_of_fault {s : State} {i : Instr} {r : FaultRecord} (h : checkFault s i = some r) :
    instrEvents s i = [.raise r.cause r.info] := by
  simp [instrEvents, h]

theorem instrEvents_of_pass {s : State} {i : Instr} (h : checkFault s i = none) :
    instrEvents s i = .checksPassed :: (workEvents s i ++ [.advance]) := by
  simp [instrEvents, workEvents, h]

/-- The events of the instruction, one after the other, do what the instruction does. -/
def Replays (i : Instr) (s : State) : Prop :=
  exec i s = .next (s.replay (instrEvents s i))

theorem replays_of_fault {i : Instr} {s : State} {f : Fault} {info : Word}
    (hc : checkFault s i = some { cause := f, info := info }) (he : exec i s = .next (s.raise f info)) : Replays i s := by
  rw [Replays, instrEvents_of_fault hc, he]
  rfl

theorem replays_of_pass {i : Instr} {s t : State} (hc : checkFault s i = none) (ht : s.replay (workEvents s i) = t)
    (he : exec i s = .next t.advance) : Replays i s := by
  rw [Replays, instrEvents_of_pass hc, he, State.replay_cons, State.replay_append]
  exact congrArg (fun u : State => Host.Outcome.next u.advance) ht.symm

/-- The write port is used by no jump, no store and not by HALT (R31). -/
theorem writePort_excludes_jump_halt_store {s : State} {i : Instr} {d : RegIdx} (h : writePort i = some d) :
    jumpDecision (s.readPort (readPort1 i)) i = none ∧ i.op ≠ .halt ∧ s.replay (dataEvents s i) = s := by
  cases i with
  | je | jn | jg | jl | stw | stb | push | halt => cases h
  | _ => exact ⟨rfl, by simp [Instr.op], rfl⟩

/-- One register write: all moves, CMP, arithmetic, logic, shifts and loads. -/
theorem replays_regWrite {i : Instr} {s : State} {d : RegIdx} {v : Word} (hc : checkFault s i = none)
    (hw : writePort i = some d)
    (hv : aluResult (s.readPort (readPort1 i)) (s.readPort (readPort2 i)) (loadedValue s i) i = some v)
    (he : exec i s = .next (s.setReg d v).advance) : Replays i s := by
  obtain ⟨hpc, hhalt, hdata⟩ := writePort_excludes_jump_halt_store (s := s) hw
  refine replays_of_pass hc ?_ he
  simp [workEvents, regEvents, pcEvents, haltEvents, hdata, hw, hv, hpc, hhalt, State.applyEvent]

/-- MOD and MODI (R165, R166). -/
theorem replays_remainder {i : Instr} {s : State} {a : RegIdx} {d : Word} (hd : divisor s i = some d)
    (hm : dataAccess s i = none) (hw : writePort i = some a)
    (hv : aluResult (s.readPort (readPort1 i)) (s.readPort (readPort2 i)) (loadedValue s i) i =
      some (BitVec.ofNat 16 ((s.reg a).toNat % d.toNat)))
    (he : exec i s = s.remainder a d) : Replays i s := by
  obtain ⟨hne, hrem⟩ | ⟨hzero, hrem⟩ := s.remainder_cases a d
  · have hmod : BitVec.ofNat 16 ((s.reg a).toNat % d.toNat) = s.reg a % d := ofNat_eq_of_toNat BitVec.toNat_umod
    exact replays_regWrite (by simp [checkFault, hd, hne, hm]) hw (hmod ▸ hv) (he.trans hrem)
  · exact replays_of_fault (by simp [checkFault, hd, hzero]) (he.trans hrem)

theorem State.memRead_isSome (s : State) (a : Word) (n : Width) : (s.memRead a n).isSome = s.inRange a n := by
  unfold State.memRead
  split <;> simp [*]

/-- LDW, LDB and POP (R201, R202, R222). -/
theorem replays_load {i : Instr} {s : State} {d : RegIdx} {a : Word} {n : Width} (hd : divisor s i = none)
    (hm : dataAccess s i = some (.read a n)) (hw : writePort i = some d)
    (hv : ∀ p q m, aluResult p q m i = some m) (he : exec i s = s.loadInto d a n) : Replays i s := by
  have hr := s.memRead_isSome a n
  obtain ⟨v, hread, hload⟩ | ⟨hread, hload⟩ := s.loadInto_cases d a n
  · exact replays_regWrite (by simp [checkFault, hd, hm, ← hr, hread]) hw
      (by simp [hv, loadedValue, hm, hread]) (he.trans hload)
  · exact replays_of_fault (by simp [checkFault, hd, hm, ← hr, hread]) (he.trans hload)

/-- STW, STB and PUSH (R203, R204, R221). -/
theorem replays_store {i : Instr} {s : State} {a v : Word} {n : Width} (hd : divisor s i = none)
    (hm : dataAccess s i = some (.write a n v)) (hw : writePort i = none)
    (hj : ∀ p, jumpDecision p i = none) (hh : haltEvents i = []) (he : exec i s = s.storeAt a n v) : Replays i s := by
  obtain ⟨t, hwrite, hstore⟩ | ⟨hwrite, hstore⟩ := s.storeAt_cases a n v
  · refine replays_of_pass ?_ ?_ (he.trans hstore)
    · simp [checkFault, hd, hm, (State.memWrite_eq_some hwrite).1]
    · simp [workEvents, dataEvents, regEvents, pcEvents, hm, hw, hj, hh, State.applyEvent, hwrite]
  · exact replays_of_fault (by simp [checkFault, hd, hm, State.memWrite_eq_none.mp hwrite]) (he.trans hstore)

/-- JE, JN, JG and JL (R142): the decision of the pointer unit is the instruction's condition. -/
theorem replays_jump {i : Instr} {s : State} {cond : Word → Bool} {imm : Imm11} (hc : checkFault s i = none)
    (hm : dataAccess s i = none) (hw : writePort i = none) (hh : haltEvents i = [])
    (hj : jumpDecision (s.readPort (readPort1 i)) i =
      if cond (s.reg 0#3) then some (BitVec.ofNat 16 imm.toNat) else none)
    (he : exec i s = s.jumpIf cond imm) : Replays i s := by
  obtain ⟨hcond, hjump⟩ | ⟨hcond, hjump⟩ := s.jumpIf_cases cond imm
  all_goals
    refine replays_of_pass hc ?_ (he.trans hjump)
    simp [workEvents, dataEvents, regEvents, pcEvents, hm, hw, hh, hj, hcond, State.applyEvent, zextImm11]

/-- Every instruction is its events (R30 to R32): the ports, the execute unit on exact numbers, the memory unit, the jump
decision, the halt write and the advance. -/
theorem exec_replays (i : Instr) (s : State) : Replays i s := by
  cases i with
  | mov a b => exact replays_regWrite rfl rfl rfl rfl
  | movi a imm => exact replays_regWrite rfl rfl (congrArg some (ofNat_eq_of_toNat (toNat_zextImm8 imm))) rfl
  | cmp a b => exact replays_regWrite rfl rfl (congrArg some (compareCode_eq ..)) rfl
  | je imm =>
    exact replays_jump (cond := condE) rfl rfl rfl rfl
      (by simp [jumpDecision, condE_iff, readPort1, State.readPort]) rfl
  | jn imm =>
    exact replays_jump (cond := condN) rfl rfl rfl rfl
      (by simp [jumpDecision, condN_iff, readPort1, State.readPort]) rfl
  | jg imm =>
    exact replays_jump (cond := condG) rfl rfl rfl rfl
      (by simp [jumpDecision, condG_iff, readPort1, State.readPort]) rfl
  | jl imm =>
    exact replays_jump (cond := condL) rfl rfl rfl rfl
      (by simp [jumpDecision, condL_iff, readPort1, State.readPort]) rfl
  | add a b => exact replays_regWrite rfl rfl (congrArg some (ofNat_eq_of_toNat_mod (BitVec.toNat_add ..))) rfl
  | addi a imm =>
    have hv : (s.reg a + zextImm8 imm).toNat = ((s.reg a).toNat + imm.toNat) % 65536 := by
      rw [BitVec.toNat_add, toNat_zextImm8]
    exact replays_regWrite rfl rfl (congrArg some (ofNat_eq_of_toNat_mod hv)) rfl
  | sub a b => exact replays_regWrite rfl rfl (congrArg some (ofInt_toNat_sub_toNat ..)) rfl
  | subi a imm =>
    have hv := ofInt_toNat_sub_toNat (s.reg a) (zextImm8 imm)
    rw [toNat_zextImm8] at hv
    exact replays_regWrite rfl rfl (congrArg some hv) rfl
  | mod a b => exact replays_remainder rfl rfl rfl rfl rfl
  | modi a imm => exact replays_remainder rfl rfl rfl (by rw [toNat_zextImm8]; rfl) rfl
  | and a b => exact replays_regWrite rfl rfl (congrArg some (ofNat_eq_of_toNat (BitVec.toNat_and ..))) rfl
  | or a b => exact replays_regWrite rfl rfl (congrArg some (ofNat_eq_of_toNat (BitVec.toNat_or ..))) rfl
  | xor a b => exact replays_regWrite rfl rfl (congrArg some (ofNat_eq_of_toNat (BitVec.toNat_xor ..))) rfl
  | bsl a b => exact replays_regWrite rfl rfl (congrArg some (ofNat_mul_two_pow ..)) rfl
  | bsr a b => exact replays_regWrite rfl rfl (congrArg some (ofNat_div_two_pow ..)) rfl
  | bsli a imm => exact replays_regWrite rfl rfl (congrArg some (ofNat_mul_two_pow ..)) rfl
  | bsri a imm => exact replays_regWrite rfl rfl (congrArg some (ofNat_div_two_pow ..)) rfl
  | ldw a b => exact replays_load rfl rfl rfl (fun _ _ _ => rfl) rfl
  | ldb a b => exact replays_load rfl rfl rfl (fun _ _ _ => rfl) rfl
  | stw a b => exact replays_store rfl rfl rfl (fun _ => rfl) rfl rfl
  | stb a b => exact replays_store rfl rfl rfl (fun _ => rfl) rfl rfl
  | push imm => exact replays_store rfl rfl rfl (fun _ => rfl) rfl rfl
  | pop a => exact replays_load rfl rfl rfl (fun _ _ _ => rfl) rfl
  | halt => exact replays_of_pass rfl rfl rfl

/-- Settles O27: the fetch and dispatch events of `step_cases`, then the instruction's own. -/
theorem datapathAgreesWithStep : Obligations.DatapathAgreesWithStep := by
  intro s
  obtain ⟨hrun, hstep⟩ | ⟨hrun, hfetch, hstep⟩ | ⟨w, e, hrun, hfetch, hdec, hstep⟩ | ⟨w, i, hrun, hfetch, hdec, hstep⟩ :=
    step_cases s
  · have hnone : stepEvents s = [] := by
      unfold stepEvents
      split
      · next h => exact absurd h hrun
      all_goals rfl
    rw [hstep, hnone]
    rfl
  · rw [hstep, stepEvents, hrun]
    simp [fetchEvents, hfetch, State.applyEvent]
  · rw [hstep, stepEvents, hrun]
    simp [fetchEvents, hfetch, hdec, State.applyEvent]
  · rw [hstep, exec_replays i s, stepEvents, hrun]
    simp [fetchEvents, hfetch, hdec, State.applyEvent]

end Sys2Proof.Machine
end

section
/-! What replaying events leaves unchanged and what it cannot see: one lemma for each event, lifted to lists of events, then to the
instruction (10_state.md R12, R19, 40_cycle_and_dispatch.md R116). -/

namespace Sys2Proof.Machine

/-! ## From one event to a list of events -/

theorem State.replay_keeps {P : State → Prop} {es : List Event} (h : ∀ e ∈ es, ∀ u, P u → P (u.applyEvent e)) {s : State}
    (hs : P s) : P (s.replay es) := by
  induction es generalizing s with
  | nil => exact hs
  | cons e es ih =>
    exact ih (fun e' he => h e' (List.mem_cons_of_mem e he)) (h e List.mem_cons_self s hs)

theorem State.replay_field {α : Type} (f : State → α) {es : List Event} (h : ∀ e ∈ es, ∀ u, f (u.applyEvent e) = f u)
    (s : State) : f (s.replay es) = f s :=
  State.replay_keeps (P := fun u => f u = f s) (fun e he u hu => (h e he u).trans hu) rfl

theorem State.applyEvent_dataWrite (s : State) (a v : Word) (n : Width) :
    s.applyEvent (.dataWrite a n v) = (s.memWrite a n v).getD s := rfl

/-- A data write changes nothing but memory (R45). -/
theorem State.applyEvent_dataWrite_mem (s : State) (a v : Word) (n : Width) :
    ∃ m, s.applyEvent (.dataWrite a n v) = { s with mem := m } := by
  rw [State.applyEvent_dataWrite]
  cases h : s.memWrite a n v with
  | none => exact ⟨s.mem, rfl⟩
  | some t => exact ⟨_, (State.memWrite_eq_some h).2⟩

/-- A data write commutes with every update that leaves memory and the parameters alone. -/
theorem State.applyEvent_dataWrite_comm {g : State → State} {s : State} {a v : Word} {n : Width} (hcfg : (g s).cfg = s.cfg)
    (hmem : (g s).mem = s.mem) (hg : ∀ m, g { s with mem := m } = { g s with mem := m }) :
    (g s).applyEvent (.dataWrite a n v) = g (s.applyEvent (.dataWrite a n v)) := by
  have hr : (g s).inRange a n = s.inRange a n := by rw [State.inRange, State.inRange, hcfg]
  rw [State.applyEvent_dataWrite, State.applyEvent_dataWrite, State.memWrite, State.memWrite, hr, hmem]
  split
  · exact (hg _).symm
  · rfl

/-! ## The events of an instruction that passes its checks -/

/-- The events that stages (c) to (f) of R114 may hold for an instruction: a register write on its write port, a `halt` write
for HALT alone, no fault and no advance. -/
def EventAllowed (i : Instr) : Event → Prop
  | .dataRead _ _ _ | .dataWrite _ _ _ | .pcWrite _ => True
  | .regWrite r _ => writePort i = some r
  | .haltWrite => i = .halt
  | .fetchRead _ _ | .checksPassed | .raise _ _ | .advance => False

theorem eventAllowed_of_mem_dataEvents {s : State} {i : Instr} {e : Event} (h : e ∈ dataEvents s i) : EventAllowed i e := by
  unfold dataEvents at h
  split at h
  · cases h
  all_goals
    rw [List.mem_singleton.mp h]
    trivial

theorem eventAllowed_of_mem_regEvents {s : State} {i : Instr} {e : Event} (h : e ∈ regEvents s i) : EventAllowed i e := by
  unfold regEvents at h
  split at h
  · next hport _ =>
    rw [List.mem_singleton.mp h]
    exact hport
  · cases h

theorem eventAllowed_of_mem_pcEvents {s : State} {i : Instr} {e : Event} (h : e ∈ pcEvents s i) : EventAllowed i e := by
  unfold pcEvents at h
  split at h
  · rw [List.mem_singleton.mp h]
    trivial
  · cases h

theorem op_eq_halt {i : Instr} : i.op = .halt ↔ i = .halt := by
  cases i <;> simp [Instr.op]

theorem eventAllowed_of_mem_haltEvents {i : Instr} {e : Event} (h : e ∈ haltEvents i) : EventAllowed i e := by
  unfold haltEvents at h
  split at h
  · next hop =>
    rw [List.mem_singleton.mp h]
    exact op_eq_halt.mp hop
  · cases h

theorem eventAllowed_of_mem_workEvents {s : State} {i : Instr} {e : Event} (h : e ∈ workEvents s i) : EventAllowed i e := by
  simp only [workEvents, List.mem_append] at h
  obtain ((hdata | hreg) | hpc) | hhalt := h
  · exact eventAllowed_of_mem_dataEvents hdata
  · exact eventAllowed_of_mem_regEvents hreg
  · exact eventAllowed_of_mem_pcEvents hpc
  · exact eventAllowed_of_mem_haltEvents hhalt

/-- Everything an instruction can do: its fault check raises, or its events (c) to (f) and the advance happen. -/
theorem exec_cases {i : Instr} {s t : State} (h : exec i s = .next t) :
    (∃ r, checkFault s i = some r ∧ t = s.raise r.cause r.info) ∨
      (checkFault s i = none ∧ t = (s.replay (workEvents s i)).advance) := by
  rw [exec_replays i s] at h
  injection h with ht
  subst ht
  cases hc : checkFault s i with
  | some r => exact .inl ⟨r, rfl, by rw [instrEvents_of_fault hc]; rfl⟩
  | none => exact .inr ⟨rfl, by rw [instrEvents_of_pass hc, State.replay_cons, State.replay_append]; rfl⟩

/-- The state after a step: the same one when stopped, a faulted one, or what the decoded instruction answers. -/
theorem step_next_cases {s t : State} (h : step s = .next t) :
    (s.runState ≠ .running ∧ t = s) ∨
      (s.runState = .running ∧ ∃ f info, t = s.raise f info) ∨
      (s.runState = .running ∧ ∃ w i, s.fetch = some w ∧ decode s.cfg.opnum w = .ok i ∧ exec i s = .next t) := by
  obtain ⟨hstop, hstep⟩ | ⟨hrun, -, hstep⟩ | ⟨w, -, hrun, -, -, hstep⟩ | ⟨w, i, hrun, hfetch, hdec, hstep⟩ := step_cases s
  · cases hstep.symm.trans h
    exact .inl ⟨hstop, rfl⟩
  · cases hstep.symm.trans h
    exact .inr (.inl ⟨hrun, _, _, rfl⟩)
  · cases hstep.symm.trans h
    exact .inr (.inl ⟨hrun, _, _, rfl⟩)
  · exact .inr (.inr ⟨hrun, w, i, hfetch, hdec, hstep.symm.trans h⟩)

/-! ## What the instruction's events leave unchanged -/

theorem fault_applyEvent {i : Instr} {e : Event} (h : EventAllowed i e) (u : State) : (u.applyEvent e).fault = u.fault := by
  cases e with
  | dataWrite a n v => obtain ⟨m, hm⟩ := u.applyEvent_dataWrite_mem a v n; rw [hm]
  | raise => exact h.elim
  | _ => rfl

theorem fault_replay_workEvents (s : State) (i : Instr) : (s.replay (workEvents s i)).fault = s.fault :=
  State.replay_field State.fault (fun _ he u => fault_applyEvent (eventAllowed_of_mem_workEvents he) u) s

theorem halt_applyEvent {i : Instr} {e : Event} (h : EventAllowed i e) (hi : i ≠ .halt) (u : State) :
    (u.applyEvent e).halt = u.halt := by
  cases e with
  | dataWrite a n v => obtain ⟨m, hm⟩ := u.applyEvent_dataWrite_mem a v n; rw [hm]
  | haltWrite => exact absurd h hi
  | _ => rfl

theorem reg_applyEvent {i : Instr} {e : Event} {r : RegIdx} (h : EventAllowed i e) (hr : writePort i ≠ some r) (u : State) :
    (u.applyEvent e).reg r = u.reg r := by
  cases e with
  | dataWrite a n v => obtain ⟨m, hm⟩ := u.applyEvent_dataWrite_mem a v n; rw [hm]; rfl
  | regWrite q v =>
    have hne : r ≠ q := fun hq => hr (hq ▸ h)
    exact u.reg_setReg_of_ne q r v hne
  | _ => rfl

/-- An instruction other than HALT leaves the halt flag (R19). -/
theorem exec_halt_unchanged {i : Instr} {s t : State} (h : exec i s = .next t) (hi : i ≠ .halt) : t.halt = s.halt := by
  obtain ⟨r, -, rfl⟩ | ⟨-, rfl⟩ := exec_cases h
  · rfl
  · exact State.replay_field State.halt (fun _ he u => halt_applyEvent (eventAllowed_of_mem_workEvents he) hi u) s

/-- An instruction leaves every register off its write port (R12). -/
theorem exec_reg_unchanged {i : Instr} {s t : State} {r : RegIdx} (h : exec i s = .next t) (hr : writePort i ≠ some r) :
    t.reg r = s.reg r := by
  obtain ⟨_, -, rfl⟩ | ⟨-, rfl⟩ := exec_cases h
  · rfl
  · exact State.replay_field (State.reg · r) (fun _ he u => reg_applyEvent (eventAllowed_of_mem_workEvents he) hr u) s

end Sys2Proof.Machine
end

section
/-! The invariant: at reset and along every step (10_state.md R18, R24, R26, 60_exceptions.md R242). -/

namespace Sys2Proof.Machine

theorem State.Inv.raise {s : State} (h : s.Inv) (hhalt : s.halt = false) (f : Fault) (info : Word) : (s.raise f info).Inv :=
  ⟨h.params, h.canonical, h.inside, h.slot, fun _ => hhalt⟩

theorem State.Inv.advance {s : State} (h : s.Inv) : s.advance.Inv :=
  ⟨h.params, h.canonical, h.inside, h.slot, h.exclusive⟩

theorem State.Inv.memWrite {s t : State} {a v : Word} {n : Width} (h : s.Inv) (ht : s.memWrite a n v = some t) : t.Inv := by
  obtain ⟨hcfg, -, -, hsp, hhalt, hfault⟩ := State.memWrite_fields ht
  exact ⟨hcfg ▸ h.params, State.wf_memWrite ht h.canonical, State.within_memWrite ht h.inside, hsp ▸ h.slot,
    hfault ▸ hhalt ▸ h.exclusive⟩

theorem State.Inv.setHalt {s : State} (h : s.Inv) (hf : s.fault = none) : s.setHalt.Inv :=
  ⟨h.params, h.canonical, h.inside, h.slot, fun hne => absurd hf hne⟩

theorem State.Inv.applyEvent {i : Instr} {e : Event} (he : EventAllowed i e) {s : State} (h : s.Inv) (hf : s.fault = none) :
    (s.applyEvent e).Inv := by
  cases e with
  | dataRead => exact h
  | dataWrite a n v =>
    rw [State.applyEvent_dataWrite]
    cases ht : s.memWrite a n v with
    | none => exact h
    | some t => exact h.memWrite ht
  | regWrite | pcWrite => exact ⟨h.params, h.canonical, h.inside, h.slot, h.exclusive⟩
  | haltWrite => exact h.setHalt hf
  | fetchRead | checksPassed | raise | advance => exact he.elim

/-- In `Running` every instruction keeps the invariant: a fault leaves `halt` false, and otherwise no event touches the fault
record, the parameters or `sp`. -/
theorem State.Inv.exec {i : Instr} {s t : State} (h : s.Inv) (hrun : s.runState = .running) (ht : exec i s = .next t) : t.Inv := by
  obtain ⟨hfault, hhalt⟩ := s.runState_running.mp hrun
  obtain ⟨r, -, rfl⟩ | ⟨-, rfl⟩ := exec_cases ht
  · exact h.raise hhalt r.cause r.info
  · refine State.Inv.advance (State.replay_keeps (P := fun u => u.Inv ∧ u.fault = none) ?_ ⟨h, hfault⟩).1
    rintro e he u ⟨hu, hf⟩
    have hallowed := eventAllowed_of_mem_workEvents he
    exact ⟨hu.applyEvent hallowed hf, (fault_applyEvent hallowed u).trans hf⟩

/-- Settles O15: the three outcomes of the step; a fault is raised only in `Running`, where `halt` is false. -/
theorem stepKeepsTheInvariant : Obligations.StepKeepsTheInvariant := by
  intro s t h ht
  obtain ⟨-, rfl⟩ | ⟨hrun, f, info, rfl⟩ | ⟨hrun, w, i, -, -, hexec⟩ := step_next_cases ht
  · exact h
  · exact h.raise (s.runState_running.mp hrun).2 f info
  · exact h.exec hrun hexec

theorem romBase_lt_of_wf {c : Config} (h : c.wf = true) : c.romBase < 65536 := by
  simp only [Config.wf, Bool.and_eq_true, decide_eq_true_eq] at h
  omega

/-- Settles O14: the image is written to an empty memory, byte by byte, below `MEM_SIZE`. -/
theorem resetWithMeetsTheInvariant : Obligations.ResetWithMeetsTheInvariant := by
  intro c rom hwf hfits
  have hsize : c.romBase + rom.length ≤ c.memSize := by simpa [Config.imageFits] using hfits
  exact ⟨hwf, Memory.wf_writeBytes rom [] c.romBase rfl, Memory.within_writeBytes c.memSize rom [] c.romBase hsize rfl, rfl,
    fun _ => rfl⟩

/-- `State.reset` is reset with the parameters `T0` and an empty image (logs 2 and 3). -/
theorem State.reset_eq_resetWith : State.reset = State.resetWith Config.t0 [] := rfl

/-- Settles O13: the case `T0` and empty image of O14. -/
theorem resetMeetsTheInvariant : Obligations.ResetMeetsTheInvariant := by
  rw [Obligations.ResetMeetsTheInvariant, State.reset_eq_resetWith]
  exact resetWithMeetsTheInvariant Config.t0 [] (by decide) (by decide)

theorem State.byteAt_resetWith (c : Config) (rom : List Byte) (n : Nat) :
    (State.resetWith c rom).byteAt n =
      if h : c.romBase ≤ n ∧ n - c.romBase < rom.length then rom[n - c.romBase] else 0#8 :=
  Memory.read_writeBytes rom [] c.romBase n

/-- Settles O11: all fields are as written by reset; memory by `byteAt_resetWith`. -/
theorem resetLeavesTheStatedValues : Obligations.ResetLeavesTheStatedValues := by
  intro c rom hwf _
  refine ⟨fun r => ?_, ?_, rfl, rfl, rfl, rfl, fun i hi => ?_, fun n hn => ?_⟩
  · exact Vector.getElem_replicate _
  · exact Nat.mod_eq_of_lt (romBase_lt_of_wf hwf)
  · simp [State.byteAt_resetWith, hi]
  · rw [State.byteAt_resetWith, dif_neg (by omega)]

end Sys2Proof.Machine
end

section
/-! The canonical form of a memory is unique (10_state.md R24, 20_memory.md R53). -/

namespace Sys2Proof.Machine.Memory

theorem wf_cons {c : Host.Cell} {m : Memory} : Memory.wf (c :: m) = true ↔ c.2 ≠ 0#8 ∧ m.wfAbove c.1 = true := by
  simp [Memory.wf]

theorem read_cons (c : Host.Cell) (m : Memory) (a : Nat) : Memory.read (c :: m) a = if c.1 = a then c.2 else m.read a := rfl

theorem read_cons_self (c : Host.Cell) (m : Memory) : Memory.read (c :: m) c.1 = c.2 := by
  rw [read_cons, if_pos rfl]

/-- Below its first listed address a canonical memory reads 0. -/
theorem read_of_lt_head {d : Host.Cell} {n : Memory} (h : Memory.wf (d :: n) = true) {a : Nat} (ha : a < d.1) :
    Memory.read (d :: n) a = 0#8 := by
  rw [read_cons, if_neg (by omega)]
  exact read_of_wfAbove n d.1 a (by omega) (wf_cons.mp h).2

/-- A canonical memory starts no later than the first byte that is not 0. -/
theorem head_le_of_read_ne {d : Host.Cell} {n : Memory} (h : Memory.wf (d :: n) = true) {a : Nat}
    (ha : Memory.read (d :: n) a ≠ 0#8) : d.1 ≤ a :=
  Nat.le_of_not_lt fun hlt => ha (read_of_lt_head h hlt)

theorem read_head_ne_zero {c : Host.Cell} {m : Memory} (h : Memory.wf (c :: m) = true) : Memory.read (c :: m) c.1 ≠ 0#8 := by
  rw [read_cons_self]
  exact (wf_cons.mp h).1

theorem head_eq_of_read_eq {c d : Host.Cell} {m n : Memory} (hm : Memory.wf (c :: m) = true) (hn : Memory.wf (d :: n) = true)
    (h : ∀ a, Memory.read (c :: m) a = Memory.read (d :: n) a) : c = d := by
  have hdc : d.1 ≤ c.1 := head_le_of_read_ne hn (h c.1 ▸ read_head_ne_zero hm)
  have hcd : c.1 ≤ d.1 := head_le_of_read_ne hm ((h d.1).symm ▸ read_head_ne_zero hn)
  have haddr : c.1 = d.1 := Nat.le_antisymm hcd hdc
  have hbyte := h c.1
  rw [read_cons_self, haddr, read_cons_self] at hbyte
  exact Prod.ext haddr hbyte

theorem tail_read_eq_of_read_eq {c : Host.Cell} {m n : Memory} (hm : m.wfAbove c.1 = true) (hn : n.wfAbove c.1 = true)
    (h : ∀ a, Memory.read (c :: m) a = Memory.read (c :: n) a) (a : Nat) : m.read a = n.read a := by
  by_cases ha : c.1 = a
  · rw [read_of_wfAbove m c.1 a ha.ge hm, read_of_wfAbove n c.1 a ha.ge hn]
  · simpa [read_cons, ha] using h a

end Sys2Proof.Machine.Memory

namespace Sys2Proof.Machine

/-- Settles O17, by induction on the list: the first cells agree, and without them the contents still do. -/
theorem canonicalMemoriesWithEqualBytesAreEqual : Obligations.CanonicalMemoriesWithEqualBytesAreEqual := by
  intro m
  induction m with
  | nil =>
    intro n _ hn h
    cases n with
    | nil => rfl
    | cons d n => exact absurd (h d.1).symm (Memory.read_head_ne_zero hn)
  | cons c m ih =>
    intro n hm hn h
    cases n with
    | nil => exact absurd (h c.1) (Memory.read_head_ne_zero hm)
    | cons d n =>
      obtain rfl := Memory.head_eq_of_read_eq hm hn h
      have hm' := (Memory.wf_cons.mp hm).2
      have hn' := (Memory.wf_cons.mp hn).2
      rw [ih n (Memory.wf_of_wfAbove hm') (Memory.wf_of_wfAbove hn') (Memory.tail_read_eq_of_read_eq hm' hn' h)]

end Sys2Proof.Machine
end

section
/-! Registers off the read ports have no influence (10_state.md R12, R31): the events are the same, and replaying them commutes with
the change or overwrites it. -/

namespace Sys2Proof.Machine

theorem State.readPort_setReg {s : State} {p : Option RegIdx} {r : RegIdx} (h : p ≠ some r) (v : Word) :
    (s.setReg r v).readPort p = s.readPort p := by
  cases p with
  | none => rfl
  | some q => exact s.reg_setReg_of_ne r q v fun hq => h (hq ▸ rfl)

theorem divisor_setReg {s : State} {i : Instr} {r : RegIdx} (h2 : readPort2 i ≠ some r) (v : Word) :
    divisor (s.setReg r v) i = divisor s i := by
  cases i with
  | mod a b => exact congrArg some (State.readPort_setReg h2 v)
  | _ => rfl

theorem dataAccess_setReg {s : State} {i : Instr} {r : RegIdx} (h1 : readPort1 i ≠ some r) (h2 : readPort2 i ≠ some r)
    (v : Word) : dataAccess (s.setReg r v) i = dataAccess s i := by
  cases i with
  | ldw a b => exact congrArg (fun x => some (Access.read x .word)) (State.readPort_setReg h2 v)
  | ldb a b => exact congrArg (fun x => some (Access.read x .byte)) (State.readPort_setReg h2 v)
  | stw a b =>
    exact congrArg₂ (fun x y => some (Access.write x .word y)) (State.readPort_setReg h2 v) (State.readPort_setReg h1 v)
  | stb a b =>
    exact congrArg₂ (fun x y => some (Access.write x .byte y)) (State.readPort_setReg h2 v) (State.readPort_setReg h1 v)
  | _ => rfl

theorem instrEvents_setReg {s : State} {i : Instr} {r : RegIdx} (h1 : readPort1 i ≠ some r) (h2 : readPort2 i ≠ some r)
    (v : Word) : instrEvents (s.setReg r v) i = instrEvents s i := by
  have hd := divisor_setReg (s := s) h2 v
  have ha := dataAccess_setReg (s := s) h1 h2 v
  have hc : checkFault (s.setReg r v) i = checkFault s i := by
    unfold checkFault
    rw [hd, ha]
    rfl
  have hl : loadedValue (s.setReg r v) i = loadedValue s i := by
    unfold loadedValue
    rw [ha]
    rfl
  unfold instrEvents dataEvents regEvents pcEvents
  rw [hc, ha, hl, State.readPort_setReg h1, State.readPort_setReg h2]

theorem State.setReg_setReg_self (s : State) (r : RegIdx) (v w : Word) : (s.setReg r v).setReg r w = s.setReg r w := by
  simp [State.setReg]

theorem State.setReg_comm {q r : RegIdx} (h : q ≠ r) (s : State) (v w : Word) :
    (s.setReg r v).setReg q w = (s.setReg q w).setReg r v := by
  have hne : r.toNat ≠ q.toNat := fun e => h (BitVec.eq_of_toNat_eq e.symm)
  exact congrArg (fun x => { s with regs := x }) (Vector.set_comm v w hne)

/-- An event either commutes with a change of `x[r]` or is the write that overwrites it. -/
theorem State.applyEvent_setReg (s : State) (r : RegIdx) (v : Word) (e : Event) :
    (s.setReg r v).applyEvent e = (s.applyEvent e).setReg r v ∨
      ∃ w, e = .regWrite r w ∧ (s.setReg r v).applyEvent e = s.applyEvent e := by
  cases e with
  | regWrite q w =>
    by_cases hq : q = r
    · subst hq
      exact .inr ⟨w, rfl, s.setReg_setReg_self q v w⟩
    · exact .inl (s.setReg_comm hq v w)
  | dataWrite a n w => exact .inl (State.applyEvent_dataWrite_comm (g := (State.setReg · r v)) rfl rfl fun _ => rfl)
  | _ => exact .inl rfl

theorem State.replay_setReg (r : RegIdx) (v : Word) (es : List Event) (s : State) :
    (s.setReg r v).replay es = (s.replay es).setReg r v ∨
      ∃ w, .regWrite r w ∈ es ∧ (s.setReg r v).replay es = s.replay es := by
  induction es generalizing s with
  | nil => exact .inl rfl
  | cons e es ih =>
    rw [State.replay_cons, State.replay_cons]
    obtain hcomm | ⟨w, rfl, hover⟩ := s.applyEvent_setReg r v e
    · rw [hcomm]
      obtain hcomm' | ⟨w, hmem, hover⟩ := ih (s.applyEvent e)
      · exact .inl hcomm'
      · exact .inr ⟨w, List.mem_cons_of_mem e hmem, hover⟩
    · exact .inr ⟨w, List.mem_cons_self, by rw [hover]⟩

theorem writePort_of_mem_instrEvents {s : State} {i : Instr} {r : RegIdx} {w : Word} (h : .regWrite r w ∈ instrEvents s i) :
    writePort i = some r := by
  cases hc : checkFault s i with
  | some f => simp [instrEvents_of_fault hc] at h
  | none =>
    have hmem : Event.regWrite r w ∈ workEvents s i := by simpa [instrEvents_of_pass hc] using h
    exact eventAllowed_of_mem_workEvents hmem

/-- Settles O19: the frame is `exec_reg_unchanged`; off the read ports the events are the same ones. -/
theorem registersReadAndWrittenAreThoseOfThePorts : Obligations.RegistersReadAndWrittenAreThoseOfThePorts := by
  intro i s t r h
  refine ⟨exec_reg_unchanged h, fun h1 h2 v => ?_⟩
  rw [exec_replays i s] at h
  injection h with ht
  subst ht
  rw [exec_replays i (s.setReg r v), instrEvents_setReg h1 h2]
  obtain hcomm | ⟨w, hmem, hover⟩ := State.replay_setReg r v (instrEvents s i) s
  · exact .inl (by rw [hcomm])
  · exact .inr ⟨writePort_of_mem_instrEvents hmem, by rw [hover]⟩

end Sys2Proof.Machine
end

section
/-! The halt flag (10_state.md R19). -/

namespace Sys2Proof.Machine

theorem State.applyEvent_setHalt (s : State) (e : Event) : s.setHalt.applyEvent e = (s.applyEvent e).setHalt := by
  cases e with
  | dataWrite a n w => exact State.applyEvent_dataWrite_comm rfl rfl fun _ => rfl
  | _ => rfl

theorem State.replay_setHalt (es : List Event) (s : State) : s.setHalt.replay es = (s.replay es).setHalt := by
  induction es generalizing s with
  | nil => rfl
  | cons e es ih => rw [State.replay_cons, State.replay_cons, State.applyEvent_setHalt, ih]

/-- No port, check or access looks at the halt flag. -/
theorem instrEvents_setHalt (s : State) (i : Instr) : instrEvents s.setHalt i = instrEvents s i := rfl

theorem exec_setHalt {i : Instr} {s t : State} (h : exec i s = .next t) : exec i s.setHalt = .next t.setHalt := by
  rw [exec_replays i s] at h
  injection h with ht
  subst ht
  rw [exec_replays i s.setHalt, instrEvents_setHalt, State.replay_setHalt]

theorem exec_halt (s : State) : exec .halt s = .next s.setHalt.advance := rfl

theorem halt_of_exec_halt {s t : State} (h : exec .halt s = .next t) : t.halt = true := by
  cases (exec_halt s).symm.trans h
  rfl

/-- A step that sets the halt flag executes HALT. -/
theorem step_sets_halt {s t : State} (h : step s = .next t) (hs : s.halt = false) (ht : t.halt = true) :
    s.runState = .running ∧ ∃ w, s.fetch = some w ∧ decode s.cfg.opnum w = .ok .halt := by
  have hne : t.halt ≠ s.halt := by simp [hs, ht]
  obtain ⟨-, rfl⟩ | ⟨-, f, info, rfl⟩ | ⟨hrun, w, i, hfetch, hdec, hexec⟩ := step_next_cases h
  · exact absurd rfl hne
  · exact absurd rfl hne
  · by_cases hi : i = .halt
    · exact ⟨hrun, w, hfetch, hi ▸ hdec⟩
    · exact absurd (exec_halt_unchanged hexec hi) hne

theorem step_keeps_halt {s t : State} (h : step s = .next t) (hs : s.halt = true) : t.halt = true := by
  have hstopped : s.runState ≠ .running := fun hrun =>
    Bool.false_ne_true ((s.runState_running.mp hrun).2.symm.trans hs)
  cases (step_of_not_running hstopped).symm.trans h
  exact hs

theorem State.Inv.halted_iff {s : State} (h : s.Inv) : s.runState = .halted ↔ s.halt = true := by
  rw [s.runState_halted]
  refine ⟨And.right, fun hhalt => ⟨?_, hhalt⟩⟩
  by_contra hfault
  exact Bool.false_ne_true ((h.exclusive hfault).symm.trans hhalt)

/-- Settles O21: HALT's own effect, the outcomes of the step, and events that do not see the flag. -/
theorem haltFlagIsMonotonic : Obligations.HaltFlagIsMonotonic :=
  ⟨fun _ _ => rfl, fun _ _ => halt_of_exec_halt, fun _ _ h => ⟨step_keeps_halt h, step_sets_halt h⟩,
    fun _ _ _ => exec_setHalt, fun _ => State.Inv.halted_iff⟩

end Sys2Proof.Machine
end

section
/-! `pc` after an instruction (10_state.md R16). -/

namespace Sys2Proof.Machine

theorem pc_replay_dataEvents (u s : State) (i : Instr) : (u.replay (dataEvents s i)).pc = u.pc := by
  refine State.replay_field State.pc (fun e he v => ?_) u
  unfold dataEvents at he
  split at he
  · cases he
  · rw [List.mem_singleton.mp he]
    rfl
  · rw [List.mem_singleton.mp he]
    obtain ⟨m, hm⟩ := v.applyEvent_dataWrite_mem _ _ _
    rw [hm]

theorem pc_replay_regEvents (u s : State) (i : Instr) : (u.replay (regEvents s i)).pc = u.pc := by
  unfold regEvents
  split <;> rfl

theorem pc_replay_haltEvents (u : State) (i : Instr) : (u.replay (haltEvents i)).pc = u.pc := by
  unfold haltEvents
  split <;> rfl

theorem pc_replay_pcEvents (u s : State) (i : Instr) :
    (u.replay (pcEvents s i)).pc = (jumpDecision (s.readPort (readPort1 i)) i).getD u.pc := by
  unfold pcEvents
  split <;> simp [*, State.applyEvent]

theorem pc_replay_workEvents (s : State) (i : Instr) :
    (s.replay (workEvents s i)).pc = (jumpDecision (s.readPort (readPort1 i)) i).getD s.pc := by
  simp only [workEvents, State.replay_append, pc_replay_haltEvents, pc_replay_pcEvents, pc_replay_regEvents,
    pc_replay_dataEvents]

/-- The advance applied to a jump's target or to the old `pc` (R142). -/
theorem toNat_jump_target (c : Prop) [Decidable c] (imm : Imm11) (p : Word) :
    ((if c then some (BitVec.ofNat 16 imm.toNat) else none).getD p + 2#16).toNat =
      if c then imm.toNat + 2 else (p.toNat + 2) % 65536 := by
  have := imm.isLt
  split
  · simp only [Option.getD_some, BitVec.toNat_add, BitVec.toNat_ofNat]
    omega
  · exact BitVec.toNat_add ..

theorem toInt_lt_one_iff (v : Word) : v.toInt < 1 ↔ v.toNat = 0 ∨ 32768 ≤ v.toNat := by
  have := v.isLt
  rw [BitVec.toInt_eq_toNat_cond]
  split <;> omega

/-- The jump decision and the advance give the table of R16. -/
theorem toNat_jumpDecision_advance (s : State) (i : Instr) :
    ((jumpDecision (s.readPort (readPort1 i)) i).getD s.pc + 2#16).toNat = pcAfter s i := by
  cases i with
  | je imm => exact toNat_jump_target _ imm s.pc
  | jn imm =>
    rw [jumpDecision, pcAfter, ← ite_not]
    exact toNat_jump_target _ imm s.pc
  | jg imm => exact toNat_jump_target _ imm s.pc
  | jl imm =>
    simp only [pcAfter, toInt_lt_one_iff]
    exact toNat_jump_target _ imm s.pc
  | _ => exact BitVec.toNat_add s.pc 2#16

/-- From `Running`, what an instruction does to `pc`, by whether it faults. -/
theorem exec_pc {i : Instr} {s t : State} (hs : s.fault = none) (h : exec i s = .next t) :
    (t.fault ≠ none ∧ t.pc = s.pc) ∨ (t.fault = none ∧ t.pc.toNat = pcAfter s i) := by
  obtain ⟨r, -, rfl⟩ | ⟨-, rfl⟩ := exec_cases h
  · exact .inl ⟨by simp, rfl⟩
  · refine .inr ⟨(fault_replay_workEvents s i).trans hs, ?_⟩
    rw [State.advance_pc, pc_replay_workEvents, toNat_jumpDecision_advance]

/-- Settles O22: a fault leaves `pc`; otherwise the jump decision and the advance give it. -/
theorem pcAfterAStepFollowsTheTable : Obligations.PcAfterAStepFollowsTheTable := by
  intro s t hrun h
  have hfault : s.fault = none := (s.runState_running.mp hrun).1
  obtain ⟨hne, -⟩ | ⟨-, f, info, rfl⟩ | ⟨-, w, i, hfetch, hdec, hexec⟩ := step_next_cases h
  · exact absurd hrun hne
  · exact ⟨fun _ _ => rfl, fun hnone => by simp at hnone⟩
  · obtain ⟨hne, hpc⟩ | ⟨hnone, hpc⟩ := exec_pc hfault hexec
    · exact ⟨fun _ _ => hpc, fun hnone => absurd hnone hne⟩
    · refine ⟨fun r hr => by simp [hnone] at hr, fun _ => ⟨w, i, hfetch, hdec, hpc, ?_⟩⟩
      rintro rfl
      exact t.runState_halted.mpr ⟨hnone, halt_of_exec_halt hexec⟩

end Sys2Proof.Machine
end

section
/-! Accesses of mixed width to the same bytes (20_memory.md R44, R45, R48). -/

namespace Sys2Proof.Machine

theorem toNat_add_one {a : Word} (h : a.toNat + 1 < 65536) : (a + 1#16).toNat = a.toNat + 1 := by
  rw [BitVec.toNat_add]
  exact Nat.mod_eq_of_lt h

namespace State

/-- An in-range byte read delivers the byte, extended with zeros (R44). -/
theorem memRead_byte_of_lt {s : State} {a : Word} (h : a.toNat < s.cfg.memSize) :
    ∃ v, s.memRead a .byte = some v ∧ v.toNat = (s.byteAt a.toNat).toNat := by
  refine ⟨_, (s.memRead_byte a).trans (if_pos h), ?_⟩
  exact BitVec.toNat_setWidth_of_le (by decide)

theorem memRead_word_of_lt {s : State} {a : Word} (h : a.toNat + 1 < s.cfg.memSize) :
    s.memRead a .word = some (s.wordAt a.toNat) :=
  (s.memRead_word a).trans (if_pos h)

theorem lt_memSize_of_memWrite_byte {s t : State} {a v : Word} (h : s.memWrite a .byte v = some t) :
    a.toNat < t.cfg.memSize := by
  rw [(memWrite_fields h).1]
  exact (s.inRange_byte a).mp (memWrite_eq_some h).1

theorem lt_memSize_of_memWrite_word {s t : State} {a v : Word} (h : s.memWrite a .word v = some t) :
    a.toNat + 1 < t.cfg.memSize := by
  rw [(memWrite_fields h).1]
  exact (s.inRange_word a).mp (memWrite_eq_some h).1

theorem byteAt_memWrite_byte_self {s t : State} {a v : Word} (h : s.memWrite a .byte v = some t) :
    t.byteAt a.toNat = lowByte v := by
  rw [byteAt_memWrite_byte h, if_pos rfl]

theorem byteAt_memWrite_byte_of_ne {s t : State} {a v : Word} (h : s.memWrite a .byte v = some t) {n : Nat}
    (hn : n ≠ a.toNat) : t.byteAt n = s.byteAt n := by
  rw [byteAt_memWrite_byte h, if_neg hn]

theorem byteAt_memWrite_word_low {s t : State} {a v : Word} (h : s.memWrite a .word v = some t) :
    t.byteAt a.toNat = lowByte v := by
  rw [byteAt_memWrite_word h, if_neg (Nat.succ_ne_self _).symm, if_pos rfl]

theorem byteAt_memWrite_word_high {s t : State} {a v : Word} (h : s.memWrite a .word v = some t) :
    t.byteAt (a.toNat + 1) = highByte v := by
  rw [byteAt_memWrite_word h, if_pos rfl]

/-- A word read after a word write to the same address (R48). -/
theorem memRead_word_of_memWrite_word {s t : State} {a v : Word} (h : s.memWrite a .word v = some t) :
    t.memRead a .word = some v := by
  rw [memRead_word_of_lt (lt_memSize_of_memWrite_word h), wordAt, byteAt_memWrite_word_low h, byteAt_memWrite_word_high h,
    wordOfBytes_lowByte_highByte]

end State

/-- Settles O16: each read goes to the bytes that the writes left, by the read-after-write rules of `byteAt`. -/
theorem mixedWidthAccessesAgree : Obligations.MixedWidthAccessesAgree := by
  refine ⟨fun s t a v hsize h => ⟨State.memRead_word_of_memWrite_word h, ?_, ?_⟩,
    fun s t u a b0 b1 hwrap h0 h1 => ?_, fun w => ?_⟩
  · have hlt := State.lt_memSize_of_memWrite_word h
    obtain ⟨lo, hread, hlo⟩ := State.memRead_byte_of_lt (Nat.lt_of_succ_lt hlt)
    exact ⟨lo, hread, by rw [hlo, State.byteAt_memWrite_word_low h, State.toNat_lowByte]⟩
  · have hlt := State.lt_memSize_of_memWrite_word h
    have hsize' : t.cfg.memSize ≤ 65536 := (State.memWrite_fields h).1 ▸ hsize
    have hnext := toNat_add_one (hlt.trans_le hsize')
    obtain ⟨hi, hread, hhi⟩ := State.memRead_byte_of_lt (hnext.symm ▸ hlt)
    exact ⟨hi, hread, by rw [hhi, hnext, State.byteAt_memWrite_word_high h, State.toNat_highByte]⟩
  · have hnext := toNat_add_one hwrap
    have hlt : a.toNat + 1 < u.cfg.memSize := hnext ▸ State.lt_memSize_of_memWrite_byte h1
    have hlow : u.byteAt a.toNat = lowByte b0 := by
      rw [State.byteAt_memWrite_byte_of_ne h1 (by omega), State.byteAt_memWrite_byte_self h0]
    have hhigh : u.byteAt (a.toNat + 1) = lowByte b1 := hnext ▸ State.byteAt_memWrite_byte_self h1
    refine ⟨_, State.memRead_word_of_lt hlt, ?_⟩
    rw [State.toNat_wordAt, hlow, hhigh, State.toNat_lowByte, State.toNat_lowByte]
  · simp [wordBytes, State.toNat_lowByte, State.toNat_highByte]

end Sys2Proof.Machine
end

section
/-! A fetch from an address just stored to (20_memory.md R56). -/

namespace Sys2Proof.Machine

/-- A store that is in range has written and advanced. -/
theorem State.memWrite_of_storeAt {s t : State} {a v : Word} {n : Width} (hr : s.inRange a n = true)
    (h : s.storeAt a n v = .next t) : ∃ u, s.memWrite a n v = some u ∧ t = u.advance := by
  obtain ⟨u, hwrite, hstore⟩ | ⟨hnone, -⟩ := s.storeAt_cases a n v
  · cases hstore.symm.trans h
    exact ⟨u, hwrite, rfl⟩
  · exact absurd hr (by simp [State.memWrite_eq_none.mp hnone])

/-- The fetch is the word read at `pc`, wherever `pc` was before (R47). -/
theorem State.fetch_setPc_advance (u : State) (a : Word) : (u.advance.setPc a).fetch = u.memRead a .word := rfl

theorem State.fetch_of_storeAt_word {s t : State} {a v : Word} (hlt : a.toNat + 1 < s.cfg.memSize)
    (h : s.storeAt a .word v = .next t) : (t.setPc a).fetch = some v := by
  obtain ⟨u, hwrite, rfl⟩ := State.memWrite_of_storeAt ((s.inRange_word a).mpr hlt) h
  rw [State.fetch_setPc_advance, State.memRead_word_of_memWrite_word hwrite]

/-- A fetch after a byte store: the byte stored and the old byte above it. -/
theorem State.fetch_of_storeAt_byte {s t : State} {a v : Word} (hlt : a.toNat + 1 < s.cfg.memSize)
    (h : s.storeAt a .byte v = .next t) :
    ∃ w, (t.setPc a).fetch = some w ∧ w.toNat = v.toNat % 256 + 256 * (s.byteAt (a.toNat + 1)).toNat := by
  obtain ⟨u, hwrite, rfl⟩ := State.memWrite_of_storeAt ((s.inRange_byte a).mpr (Nat.lt_of_succ_lt hlt)) h
  have hlt' : a.toNat + 1 < u.cfg.memSize := (State.memWrite_fields hwrite).1 ▸ hlt
  refine ⟨_, (State.fetch_setPc_advance u a).trans (State.memRead_word_of_lt hlt'), ?_⟩
  rw [State.toNat_wordAt, State.byteAt_memWrite_byte_self hwrite, State.toNat_lowByte,
    State.byteAt_memWrite_byte_of_ne hwrite (Nat.succ_ne_self _)]

/-- Settles O18: STW, STB and PUSH are stores in range, so the fetch reads what `memWrite` left. -/
theorem storesAreSeenByTheNextFetch : Obligations.StoresAreSeenByTheNextFetch :=
  ⟨fun _ _ _ _ h hlt => State.fetch_of_storeAt_word hlt h, fun _ _ _ _ h hlt => State.fetch_of_storeAt_byte hlt h,
    fun _ _ imm h hlt => ⟨zextImm11 imm, State.fetch_of_storeAt_word hlt h, toNat_zextImm11 imm⟩⟩

end Sys2Proof.Machine
end

section
/-! Where a step can go on (20_memory.md R43). -/

namespace Sys2Proof.Machine

/-- `pcAfter` is the next instruction or, for a jump, two above its operand (R16, R142). -/
theorem pcAfter_cases (s : State) (i : Instr) :
    pcAfter s i = (s.pc.toNat + 2) % 65536 ∨ ∃ imm, IsJump i imm ∧ pcAfter s i = imm.toNat + 2 := by
  cases i with
  | je imm => exact (ite_eq_or_eq _ _ _).symm.imp_right fun h => ⟨imm, .inl rfl, h⟩
  | jn imm => exact (ite_eq_or_eq _ _ _).symm.imp_right fun h => ⟨imm, .inr (.inl rfl), h⟩
  | jg imm => exact (ite_eq_or_eq _ _ _).symm.imp_right fun h => ⟨imm, .inr (.inr (.inl rfl)), h⟩
  | jl imm => exact (ite_eq_or_eq _ _ _).symm.imp_right fun h => ⟨imm, .inr (.inr (.inr rfl)), h⟩
  | _ => exact .inl rfl

/-- Settles O23: by O22 the step goes on at `pcAfter`, and a jump's operand is at most 2047. -/
theorem jumpsReachOnlyLowAddresses : Obligations.JumpsReachOnlyLowAddresses := by
  intro s t hrun h hnone
  obtain ⟨-, i, -, -, hpc, -⟩ := (pcAfterAStepFollowsTheTable s t hrun h).2 hnone
  obtain hnext | ⟨imm, -, hjump⟩ := pcAfter_cases s i
  · exact .inl (hpc.trans hnext)
  · have := imm.isLt
    exact .inr (by omega)

end Sys2Proof.Machine
end

section
/-! Decoding and encoding, format by format (30_encoding.md R72 to R75, R86): a word's opcode and the fields its format reads say
everything an encoder or a decoder sees of it. -/

namespace Sys2Proof.Laws

/-! ## The fields a format uses (R74) -/

/-- The field values with those the format does not use set to 0. -/
def usedFields : Format → RawFields → RawFields
  | .rr, f => { a := f.a, b := f.b }
  | .ri, f => { a := f.a, imm8 := f.imm8 }
  | .r, f => { a := f.a }
  | .j, f => { imm11 := f.imm11 }
  | .z, _ => { }

/-- The fields of a word that its format uses, as numbers. -/
def wordFields (fmt : Format) (w : Word) : RawFields :=
  usedFields fmt { a := (fieldA w).toNat, b := (fieldB w).toNat, imm8 := (fieldImm8 w).toNat, imm11 := (fieldImm11 w).toNat }

theorem usedFields_fields (i : Instr) : usedFields i.op.format i.fields = i.fields := by
  cases i <;> rfl

theorem instrOf_fields (k : Op) (w : Word) : (instrOf k w).fields = wordFields k.format w := by
  cases k <;> rfl

/-- An instruction is its name and its fields. -/
theorem instrOf_eq_of_wordFields {i : Instr} {w : Word} (h : wordFields i.op.format w = i.fields) : instrOf i.op w = i := by
  cases i with
  | halt => rfl
  | _ => simpa [wordFields, usedFields, Instr.op, Op.format, Instr.fields, instrOf, BitVec.toNat_inj] using h

theorem rawFields_inRange_iff (f : RawFields) : f.inRange = true ↔ f.a < 8 ∧ f.b < 8 ∧ f.imm8 < 256 ∧ f.imm11 < 2048 := by
  simp [RawFields.inRange, and_assoc]

/-- Fields read from a word need no range check (R73). -/
theorem wordFields_inRange (fmt : Format) (w : Word) : (wordFields fmt w).inRange = true := by
  have ha := (fieldA w).isLt
  have hb := (fieldB w).isLt
  have hi8 := (fieldImm8 w).isLt
  have hi11 := (fieldImm11 w).isLt
  rw [rawFields_inRange_iff]
  cases fmt <;> simp only [wordFields, usedFields] <;> omega

/-! ## Encoded words (R73) -/

theorem toNat_encodeFields (fmt : Format) {op : Nat} {f : RawFields} (ho : op < 32) (hf : f.inRange = true) :
    (encodeFields fmt op f).toNat = match fmt with
      | .rr => op + 32 * f.a + 256 * f.b
      | .ri => op + 32 * f.a + 256 * f.imm8
      | .r => op + 32 * f.a
      | .j => op + 32 * f.imm11
      | .z => op := by
  obtain ⟨ha, hb, hi8, hi11⟩ := (rawFields_inRange_iff f).mp hf
  cases fmt with
  | rr => exact toNat_encodeRR op f.a f.b ho ha hb
  | ri => exact toNat_encodeRI op f.a f.imm8 ho ha hi8
  | r => exact toNat_encodeR op f.a ho ha
  | j => exact toNat_encodeJ op f.imm11 ho hi11
  | z => exact toNat_encodeZ op ho

theorem toNat_fieldOpcode_encodeFields (fmt : Format) {op : Nat} {f : RawFields} (ho : op < 32) (hf : f.inRange = true) :
    (fieldOpcode (encodeFields fmt op f)).toNat = op := by
  rw [toNat_fieldOpcode, toNat_encodeFields fmt ho hf]
  cases fmt <;> dsimp only <;> omega

theorem wordFields_encodeFields (fmt : Format) {op : Nat} {f : RawFields} (ho : op < 32) (hf : f.inRange = true) :
    wordFields fmt (encodeFields fmt op f) = usedFields fmt f := by
  obtain ⟨ha, hb, hi8, hi11⟩ := (rawFields_inRange_iff f).mp hf
  cases fmt <;>
    simp only [wordFields, usedFields, toNat_fieldA, toNat_fieldB, toNat_fieldImm8, toNat_fieldImm11,
      toNat_encodeFields _ ho hf, RawFields.mk.injEq, and_true, true_and] <;>
    omega

/-- Encoding the opcode and the fields read from a word gives the word without its ignored bits. -/
theorem encodeFields_wordFields (fmt : Format) (w : Word) :
    encodeFields fmt (fieldOpcode w).toNat (wordFields fmt w) = clearIgnored fmt w := by
  apply BitVec.eq_of_toNat_eq
  rw [toNat_encodeFields fmt (fieldOpcode w).isLt (wordFields_inRange fmt w), toNat_clearIgnored]
  cases fmt <;>
    simp only [wordFields, usedFields, toNat_fieldOpcode, toNat_fieldA, toNat_fieldB, toNat_fieldImm8, toNat_fieldImm11] <;>
    omega

theorem fieldOpcode_encode (o : OpNum) (i : Instr) : fieldOpcode (encode o i) = o.num i.op :=
  BitVec.eq_of_toNat_eq (toNat_fieldOpcode_encodeFields _ (o.num i.op).isLt (instr_wellFormed i))

/-- Whatever the number in the opcode bits, an instruction's fields read back as the instruction. -/
theorem instrOf_encodeFields (i : Instr) {op : Nat} (ho : op < 32) :
    instrOf i.op (encodeFields i.op.format op i.fields) = i := by
  apply instrOf_eq_of_wordFields
  rw [wordFields_encodeFields _ ho (instr_wellFormed i), usedFields_fields]

theorem decode_encode {o : OpNum} (h : o.injective = true) (i : Instr) : decode o (encode o i) = .ok i := by
  rw [decode_of_opcode h (fieldOpcode_encode o i), encode, instrOf_encodeFields i (o.num i.op).isLt]

/-! ## Decoded words (R72, R75) -/

theorem decode_eq_ok_iff {o : OpNum} (h : o.injective = true) {w : Word} {i : Instr} :
    decode o w = .ok i ↔ fieldOpcode w = o.num i.op ∧ i = instrOf i.op w := by
  constructor
  · intro hdec
    obtain ⟨k, hk, hok⟩ | ⟨-, herr⟩ := decode_cases o w
    · cases hok.symm.trans hdec
      rw [instrOf_op]
      exact ⟨hk.symm, rfl⟩
    · cases herr.symm.trans hdec
  · rintro ⟨hop, hi⟩
    rw [decode_of_opcode h hop, ← hi]

theorem encode_of_decode {o : OpNum} (h : o.injective = true) {w : Word} {i : Instr} (hdec : decode o w = .ok i) :
    encode o i = clearIgnored i.op.format w := by
  obtain ⟨hop, hi⟩ := (decode_eq_ok_iff h).mp hdec
  have hfields : i.fields = wordFields i.op.format w := by
    rw [← instrOf_fields, ← hi]
  rw [encode, ← hop, hfields, encodeFields_wordFields]

theorem encode_injective {o : OpNum} (h : o.injective = true) {i j : Instr} (e : encode o i = encode o j) : i = j :=
  Except.ok.inj ((decode_encode h i).symm.trans (e ▸ decode_encode h j))

theorem fieldOpcode_clearIgnored (fmt : Format) (w : Word) : fieldOpcode (clearIgnored fmt w) = fieldOpcode w := by
  apply BitVec.eq_of_toNat_eq
  rw [toNat_fieldOpcode, toNat_fieldOpcode, toNat_clearIgnored]
  cases fmt <;> dsimp only <;> omega

/-- The words decode alike because they have the same opcode and the same canonical encoding. -/
theorem decode_of_clearIgnored_eq {o : OpNum} (h : o.injective = true) {w v : Word} {i : Instr} (hdec : decode o w = .ok i)
    (hv : clearIgnored i.op.format v = clearIgnored i.op.format w) : decode o v = .ok i := by
  have hop : fieldOpcode v = o.num i.op := by
    rw [← fieldOpcode_clearIgnored i.op.format v, hv, fieldOpcode_clearIgnored, ((decode_eq_ok_iff h).mp hdec).1]
  have hdecv := decode_of_opcode h hop
  have hsame : encode o (instrOf i.op v) = encode o i := by
    rw [encode_of_decode h hdecv, encode_of_decode h hdec, instrOf_op, hv]
  rw [hdecv, encode_injective h hsame]

/-- Settles O5: both ways go through the opcode and the fields a format reads. -/
theorem decodeAndEncodeAgree : Obligations.DecodeAndEncodeAgree :=
  fun _ h => ⟨decode_encode h, fun _ _ => encode_of_decode h⟩

/-- Settles O6: the second part is O5's, for the word an encoding is. -/
theorem ignoredBitsAreNotExamined : Obligations.IgnoredBitsAreNotExamined :=
  fun _ h => ⟨fun _ _ _ => decode_of_clearIgnored_eq h, fun i => (encode_of_decode h (decode_encode h i)).symm⟩

/-- Settles O9, word by word. -/
theorem sampleWordsDecode : Obligations.SampleWordsDecode := by
  refine ⟨?_, ?_, ?_, ?_, ?_, ?_, ?_, ?_, ?_, ?_, ?_, ?_⟩ <;> decide

end Sys2Proof.Laws
end

section
/-! Dispatch by the opcode field, and the opcodes no instruction has (30_encoding.md R82, R83). -/

namespace Sys2Proof.Machine

open Sys2Proof.Laws

/-- The mask of R82 keeps the opcode field. -/
theorem toNat_and_opcodeMask (w : Word) : (w &&& 0x001F#16).toNat = (fieldOpcode w).toNat :=
  (toNat_clearIgnored .z w).trans (toNat_fieldOpcode w).symm

theorem fieldOpcode_eq_iff_exists_decode {o : OpNum} (h : o.injective = true) (w : Word) (k : Op) :
    fieldOpcode w = o.num k ↔ ∃ i, decode o w = .ok i ∧ i.op = k := by
  constructor
  · intro hop
    exact ⟨instrOf k w, decode_of_opcode h hop, instrOf_op k w⟩
  · rintro ⟨i, hdec, rfl⟩
    exact ((decode_eq_ok_iff h).mp hdec).1

theorem step_of_decode {s : State} {w : Word} {i : Instr} (hrun : s.runState = .running) (hfetch : s.fetch = some w)
    (hdec : decode s.cfg.opnum w = .ok i) : step s = exec i s := by
  simp [step, hrun, hfetch, hdec]

theorem step_of_decode_error {s : State} {w : Word} {e : DecodeError} (hrun : s.runState = .running)
    (hfetch : s.fetch = some w) (hdec : decode s.cfg.opnum w = .error e) :
    step s = .next (s.Faulted .illegalInstruction w) := by
  simp only [step, hrun, hfetch, hdec]
  rfl

/-- Settles O7: the mask of R82 is the opcode field, and decoding is by that field alone. -/
theorem dispatchIsByOpcodeAlone : Obligations.DispatchIsByOpcodeAlone := by
  have hmask : ∀ (o : OpNum) (w : Word) (k : Op), (w &&& 0x001F#16).toNat = (o.num k).toNat ↔ fieldOpcode w = o.num k := by
    intro o w k
    rw [toNat_and_opcodeMask, BitVec.toNat_inj]
  constructor
  · intro o h w k
    rw [hmask, fieldOpcode_eq_iff_exists_decode h]
  · intro s w k h hrun hfetch hop
    obtain ⟨i, hdec, hi⟩ := (fieldOpcode_eq_iff_exists_decode h w k).mp ((hmask _ w k).mp hop)
    exact ⟨i, hi, step_of_decode hrun hfetch hdec⟩

theorem decode_eq_error_iff (o : OpNum) (w : Word) :
    decode o w = .error (.illegalInstruction w) ↔ ∀ k, o.num k ≠ fieldOpcode w := by
  obtain ⟨k, hk, hdec⟩ | ⟨hnone, hdec⟩ := decode_cases o w
  · simp only [hdec, reduceCtorEq, false_iff]
    exact fun h => h k hk
  · exact iff_of_true hdec hnone

/-- The default numbering uses up 0 to 26 (R81). -/
theorem dispatch_default_eq_none_iff (n : OpNumber) : dispatch OpNum.default n = none ↔ 27 ≤ n.toNat := by
  revert n
  decide

/-- Settles O8: decoding fails exactly when no instruction has the opcode, and the step then raises the fault. -/
theorem unassignedOpcodesAreIllegal : Obligations.UnassignedOpcodesAreIllegal := by
  constructor
  · intro s w hrun hfetch hnone
    exact step_of_decode_error hrun hfetch ((decode_eq_error_iff _ w).mpr hnone)
  · intro w
    rw [decode_eq_error_iff, ← dispatch_eq_none, dispatch_default_eq_none_iff, toNat_fieldOpcode]

end Sys2Proof.Machine
end

section
/-! Literals and register operands as texts (30_encoding.md R97 to R99). -/

namespace Sys2Proof.Machine

/-! ## Reading digits -/

theorem isDigit_iff (c : Char) : isDigit c = true ↔ 48 ≤ c.toNat ∧ c.toNat ≤ 57 := by
  simp [isDigit]

theorem parseDigits_append_of_stop {ds rest : List Char} (hds : ∀ c ∈ ds, isDigit c = true)
    (hrest : ∀ c ∈ rest.head?, isDigit c = false) (n : Nat) : parseDigits n (ds ++ rest) = parseDigits n ds := by
  induction ds generalizing n with
  | nil =>
    cases rest with
    | nil => rfl
    | cons c cs => exact parseDigits_stop (hrest c rfl) n cs
  | cons d ds ih =>
    obtain ⟨hd, hds⟩ := List.forall_mem_cons.mp hds
    rw [List.cons_append, parseDigits_digit hd, parseDigits_digit hd, ih hds]

theorem cast_parseDigits {ds : List Char} (hds : ∀ c ∈ ds, isDigit c = true) (n : Nat) :
    (parseDigits n ds : Int) = ds.foldl (fun (n : Int) c => 10 * n + ((c.toNat : Int) - 48)) n := by
  induction ds generalizing n with
  | nil => rfl
  | cons d ds ih =>
    obtain ⟨hd, hds⟩ := List.forall_mem_cons.mp hds
    have hstep : ((n * 10 + (d.toNat - 48) : Nat) : Int) = 10 * n + ((d.toNat : Int) - 48) := by
      have := (isDigit_iff d).mp hd
      omega
    rw [parseDigits_digit hd, ih hds, hstep, List.foldl_cons]

theorem parseNat_append_of_stop {ds rest : List Char} (hne : ds ≠ []) (hds : ∀ c ∈ ds, isDigit c = true)
    (hrest : ∀ c ∈ rest.head?, isDigit c = false) : parseNat (ds ++ rest) = some (parseDigits 0 ds) := by
  obtain ⟨d, ds, rfl⟩ := List.exists_cons_of_ne_nil hne
  have hread := parseDigits_append_of_stop hds hrest 0
  rw [List.cons_append] at hread ⊢
  rw [parseNat, if_pos (hds d List.mem_cons_self), hread]

theorem parseLit_append_of_stop {ds rest : List Char} (hne : ds ≠ []) (hds : ∀ c ∈ ds, isDigit c = true)
    (hrest : ∀ c ∈ rest.head?, isDigit c = false) : parseLit (ds ++ rest) = some (parseDigits 0 ds : Int) := by
  have hnat := parseNat_append_of_stop hne hds hrest
  obtain ⟨d, ds, rfl⟩ := List.exists_cons_of_ne_nil hne
  rw [List.cons_append] at hnat ⊢
  rw [parseLit_digit (hds d List.mem_cons_self), hnat, Option.map_some]

theorem parseLit_minus_append_of_stop {ds rest : List Char} (hne : ds ≠ []) (hds : ∀ c ∈ ds, isDigit c = true)
    (hrest : ∀ c ∈ rest.head?, isDigit c = false) :
    parseLit ('-' :: (ds ++ rest)) = some (-(parseDigits 0 ds : Int)) := by
  rw [parseLit_minus, parseNat_append_of_stop hne hds hrest, Option.map_some]

/-! ## Writing digits -/

theorem toNat_digitChar {n : Nat} (h : n < 10) : (Char.ofNat (48 + n)).toNat = 48 + n := by
  rw [Char.toNat_ofNat, if_pos (.inl (by omega))]

theorem isDigit_digitChar {n : Nat} (h : n < 10) : isDigit (Char.ofNat (48 + n)) = true := by
  rw [isDigit_iff, toNat_digitChar h]
  omega

theorem parseDigits_digitChar {d : Nat} (h : d < 10) (n : Nat) (cs : List Char) :
    parseDigits n (Char.ofNat (48 + d) :: cs) = parseDigits (n * 10 + d) cs := by
  rw [parseDigits_digit (isDigit_digitChar h), toNat_digitChar h, Nat.add_sub_cancel_left]

theorem isDigit_of_mem_decimalAux {k n : Nat} {acc : List Char} (hacc : ∀ c ∈ acc, isDigit c = true) :
    ∀ c ∈ decimalAux k n acc, isDigit c = true := by
  induction k generalizing n acc with
  | zero => exact hacc
  | succ k ih =>
    rw [decimalAux]
    split
    · next hlt => exact List.forall_mem_cons.mpr ⟨isDigit_digitChar hlt, hacc⟩
    · exact ih (List.forall_mem_cons.mpr ⟨isDigit_digitChar (Nat.mod_lt n (by decide)), hacc⟩)

theorem decimalAux_ne_nil {k n : Nat} {acc : List Char} (h : 0 < k ∨ acc ≠ []) : decimalAux k n acc ≠ [] := by
  induction k generalizing n acc with
  | zero => exact h.resolve_left (Nat.lt_irrefl 0)
  | succ k ih =>
    rw [decimalAux]
    split
    · exact List.cons_ne_nil _ _
    · exact ih (.inr (List.cons_ne_nil _ _))

/-- The digits written for `n` are read back as `n`, before whatever was written after them. -/
theorem parseDigits_decimalAux {k n : Nat} (h : n < 10 ^ k) (acc : List Char) :
    parseDigits 0 (decimalAux k n acc) = parseDigits n acc := by
  induction k generalizing n acc with
  | zero =>
    obtain rfl : n = 0 := by omega
    rfl
  | succ k ih =>
    rw [decimalAux]
    split
    · next hlt => rw [parseDigits_digitChar hlt, Nat.zero_mul, Nat.zero_add]
    · rw [ih (by omega), parseDigits_digitChar (Nat.mod_lt n (by decide)), Nat.div_add_mod']

theorem isDigit_of_mem_decimal (n : Nat) : ∀ c ∈ decimal n, isDigit c = true :=
  isDigit_of_mem_decimalAux (by simp)

theorem decimal_ne_nil (n : Nat) : decimal n ≠ [] :=
  decimalAux_ne_nil (.inl (by decide))

/-- A number in decimal, then any text that begins with no digit, reads as the number (R98). -/
theorem parseLit_decimal_append {n : Nat} {rest : List Char} (hn : n < 100000)
    (hrest : ∀ c ∈ rest.head?, isDigit c = false) : parseLit (decimal n ++ rest) = some (n : Int) := by
  rw [parseLit_append_of_stop (decimal_ne_nil n) (isDigit_of_mem_decimal n) hrest, decimal, parseDigits_decimalAux hn,
    parseDigits_nil]

theorem parseLit_decimal {n : Nat} (hn : n < 100000) : parseLit (decimal n) = some (n : Int) := by
  simpa using parseLit_decimal_append (rest := []) hn (by simp)

theorem parseReg_regText {n : Nat} (hn : n < 8) : parseReg (regText n) = some n := by
  have hchar := toNat_digitChar (n := n) (by omega)
  rw [regText, parseReg, if_pos ⟨rfl, by omega, by omega⟩, hchar, Nat.add_sub_cancel_left]

theorem litImm8_natCast {n : Nat} (hn : n < 256) : litImm8 n = n := by
  rw [litImm8]
  omega

theorem litImm11_natCast {n : Nat} (hn : n < 2048) : litImm11 n = n := by
  rw [litImm11]
  omega

end Sys2Proof.Machine
end

section
/-! How a line is split into mnemonic and operands (30_encoding.md R96, R100), and what the operands of each format give (R101). -/

namespace Sys2Proof.Machine

open Sys2Proof.Laws

/-! ## Texts without separators -/

/-- The texts a line is put together from: not empty, no white space, no comma. -/
def Solid (t : List Char) : Prop :=
  t ≠ [] ∧ ∀ c ∈ t, isBlank c = false ∧ c ≠ ','

theorem solid_of_ne_nil_of_forall_digit {t : List Char} (hne : t ≠ []) (h : ∀ c ∈ t, isDigit c = true) : Solid t := by
  refine ⟨hne, fun c hc => ?_⟩
  have hdigit := (isDigit_iff c).mp (h c hc)
  constructor
  · rw [Bool.eq_false_iff]
    intro hblank
    simp only [isBlank, Bool.or_eq_true, beq_iff_eq] at hblank
    rcases hblank with ((rfl | rfl) | rfl) | rfl <;> exact absurd hdigit (by decide)
  · rintro rfl
    exact absurd hdigit (by decide)

theorem solid_decimal (n : Nat) : Solid (decimal n) :=
  solid_of_ne_nil_of_forall_digit (decimal_ne_nil n) (isDigit_of_mem_decimal n)

theorem solid_regText {n : Nat} (hn : n < 8) : Solid (regText n) := by
  have hdigit : Solid [Char.ofNat (48 + n)] :=
    solid_of_ne_nil_of_forall_digit (by simp) (by simpa using isDigit_digitChar (n := n) (by omega))
  exact ⟨by simp [regText], List.forall_mem_cons.mpr ⟨by decide, hdigit.2⟩⟩

theorem solid_mnemonic (k : Op) : Solid (mnemonic k) := by
  cases k <;> simp [Solid, mnemonic, isBlank]

theorem Solid.not_mem_of_isBlank {t : List Char} (h : Solid t) {c : Char} (hc : isBlank c = true) : c ∉ t :=
  fun hmem => Bool.false_ne_true ((h.2 c hmem).1.symm.trans hc)

theorem Solid.not_mem_comma {t : List Char} (h : Solid t) : ',' ∉ t :=
  fun hmem => (h.2 ',' hmem).2 rfl

/-! ## Trimming -/

theorem trimBlanks_eq (cs : List Char) : trimBlanks cs = (cs.dropWhile isBlank).rdropWhile isBlank := rfl

theorem rdropWhile_append_of_getLast {α : Type} {p : α → Bool} {xs : List α} (hne : xs ≠ []) (h : p (xs.getLast hne) = false)
    (ys : List α) : (xs ++ ys).rdropWhile p = xs ++ ys.rdropWhile p := by
  induction ys using List.reverseRecOn with
  | nil => simp [List.rdropWhile_eq_self_iff, h]
  | append_singleton ys y ih =>
    rw [← List.append_assoc, List.rdropWhile_concat, List.rdropWhile_concat]
    split
    · exact ih
    · exact List.append_assoc xs ys [y]

/-- A text that trimming leaves alone at both ends, whatever stands around it, and that is one line. -/
structure CleanLine (t : List Char) : Prop where
  ne_nil : t ≠ []
  dropWhile_append : ∀ u, (t ++ u).dropWhile isBlank = t ++ u
  rdropWhile_append : ∀ s u, (s ++ t ++ u).rdropWhile isBlank = s ++ t ++ u.rdropWhile isBlank
  not_mem_newline : '\n' ∉ t

theorem Solid.cleanLine {t : List Char} (h : Solid t) : CleanLine t where
  ne_nil := h.1
  dropWhile_append := fun u => by
    obtain ⟨c, t, rfl⟩ := List.exists_cons_of_ne_nil h.1
    simp [(h.2 c List.mem_cons_self).1]
  rdropWhile_append := fun s u => by
    apply rdropWhile_append_of_getLast (by simp [h.1])
    rw [List.getLast_append_of_ne_nil _ h.1]
    exact (h.2 _ (List.getLast_mem h.1)).1
  not_mem_newline := h.not_mem_of_isBlank rfl

/-- Between two clean ends anything but a newline may stand. -/
theorem CleanLine.append {s t : List Char} (hs : CleanLine s) (sep : List Char) (hsep : '\n' ∉ sep) (ht : CleanLine t) :
    CleanLine (s ++ (sep ++ t)) where
  ne_nil := by simp [hs.ne_nil]
  dropWhile_append := fun u => by
    rw [List.append_assoc, hs.dropWhile_append]
  rdropWhile_append := fun r u => by
    simpa using ht.rdropWhile_append (r ++ (s ++ sep)) u
  not_mem_newline := by
    simp [hs.not_mem_newline, hsep, ht.not_mem_newline]

theorem CleanLine.trimBlanks_append {t : List Char} (h : CleanLine t) (u : List Char) :
    trimBlanks (t ++ u) = t ++ u.rdropWhile isBlank := by
  rw [trimBlanks_eq, h.dropWhile_append]
  exact h.rdropWhile_append [] u

theorem CleanLine.trimBlanks_eq {t : List Char} (h : CleanLine t) : trimBlanks t = t := by
  simpa using h.trimBlanks_append []

theorem cleanLine_one (k : Op) {x : List Char} (hx : Solid x) : CleanLine (mnemonic k ++ ' ' :: x) :=
  (solid_mnemonic k).cleanLine.append [' '] (by decide) hx.cleanLine

theorem cleanLine_two (k : Op) {x y : List Char} (hx : Solid x) (hy : Solid y) :
    CleanLine (mnemonic k ++ ' ' :: x ++ ',' :: ' ' :: y) :=
  (cleanLine_one k hx).append [',', ' '] (by decide) hy.cleanLine

/-! ## Splitting -/

theorem breakAt_append {sep : Char} {m : List Char} (h : sep ∉ m) (rest : List Char) :
    breakAt sep (m ++ sep :: rest) = (m, some rest) := by
  induction m with
  | nil => simp [breakAt]
  | cons c m ih =>
    obtain ⟨hc, hm⟩ := not_or.mp (List.mem_cons.not.mp h)
    rw [List.cons_append, breakAt, if_neg (Ne.symm hc), ih hm]

theorem breakAt_of_not_mem {sep : Char} {m : List Char} (h : sep ∉ m) : breakAt sep m = (m, none) := by
  induction m with
  | nil => rfl
  | cons c m ih =>
    obtain ⟨hc, hm⟩ := not_or.mp (List.mem_cons.not.mp h)
    rw [breakAt, if_neg (Ne.symm hc), ih hm]

theorem splitLine_mnemonic (k : Op) : splitLine (mnemonic k) = { name := mnemonic k, first := none, second := none } := by
  rw [splitLine, breakAt_of_not_mem ((solid_mnemonic k).not_mem_of_isBlank rfl)]

theorem splitLine_one (k : Op) {x : List Char} (hx : ',' ∉ x) :
    splitLine (mnemonic k ++ ' ' :: x) = { name := mnemonic k, first := some x, second := none } := by
  rw [splitLine, breakAt_append ((solid_mnemonic k).not_mem_of_isBlank rfl)]
  simp only [breakAt_of_not_mem hx, Option.map_none]

theorem splitLine_two (k : Op) {x : List Char} (hx : ',' ∉ x) (y : List Char) :
    splitLine (mnemonic k ++ ' ' :: (x ++ ',' :: y)) =
      { name := mnemonic k, first := some x, second := some (y.dropWhile isBlank) } := by
  rw [splitLine, breakAt_append ((solid_mnemonic k).not_mem_of_isBlank rfl)]
  simp only [breakAt_append hx, Option.map_some]

theorem opOfMnemonic_mnemonic (k : Op) : opOfMnemonic (mnemonic k) = some k := by
  cases k <;> decide

theorem assembleLine_of_splitLine {line : List Char} {k : Op} {x y : Option (List Char)}
    (h : splitLine (trimBlanks line) = { name := mnemonic k, first := x, second := y }) :
    assembleLine line = operands k x y := by
  simp only [assembleLine, h, opOfMnemonic_mnemonic]

/-! ## Whole lines -/

theorem assembleLine_mnemonic (k : Op) : assembleLine (mnemonic k) = operands k none none := by
  apply assembleLine_of_splitLine
  rw [(solid_mnemonic k).cleanLine.trimBlanks_eq, splitLine_mnemonic]

theorem assembleLine_one (k : Op) {x : List Char} (hx : Solid x) :
    assembleLine (mnemonic k ++ ' ' :: x) = operands k (some x) none := by
  apply assembleLine_of_splitLine
  rw [(cleanLine_one k hx).trimBlanks_eq, splitLine_one k hx.not_mem_comma]

/-- Of what follows the second operand only white space at the end of the line is lost. -/
theorem assembleLine_two_append (k : Op) {x y : List Char} (hx : Solid x) (hy : Solid y) (u : List Char) :
    assembleLine (mnemonic k ++ ' ' :: x ++ ',' :: ' ' :: y ++ u) =
      operands k (some x) (some (y ++ u.rdropWhile isBlank)) := by
  apply assembleLine_of_splitLine
  have hsplit := splitLine_two k hx.not_mem_comma (' ' :: (y ++ u.rdropWhile isBlank))
  rw [List.dropWhile_cons_of_pos rfl, hy.cleanLine.dropWhile_append] at hsplit
  rw [(cleanLine_two k hx hy).trimBlanks_append, ← hsplit]
  simp

theorem assembleLine_two (k : Op) {x y : List Char} (hx : Solid x) (hy : Solid y) :
    assembleLine (mnemonic k ++ ' ' :: x ++ ',' :: ' ' :: y) = operands k (some x) (some y) := by
  simpa using assembleLine_two_append k hx hy []

/-! ## Operands (R101, R102) -/

theorem operandsRR_regText (k : Op) {a b : Nat} (ha : a < 8) (hb : b < 8) :
    operandsRR k (regText a) (regText b) = some (instrOfFields k { a := a, b := b }) := by
  have hreg : startsAsReg (regText b) = true := rfl
  simp only [operandsRR, parseReg_regText ha, hreg, if_true, parseReg_regText hb, Option.map_some]

theorem operandsRI_literal (k : Op) {a n : Nat} {y : List Char} (ha : a < 8) (hn : n < 256) (hy : parseLit y = some (n : Int)) :
    operandsRI k (regText a) y = some (instrOfFields k { a := a, imm8 := n }) := by
  simp only [operandsRI, parseReg_regText ha, hy, litImm8_natCast hn]

/-- A literal that begins with a digit is no register operand, so the register form's mnemonic gives the immediate form (R102). -/
theorem operandsRR_literal {k l : Op} (hl : literalForm k = some l) {a n : Nat} {y : List Char} (ha : a < 8) (hn : n < 256)
    (hreg : startsAsReg y = false) (hy : parseLit y = some (n : Int)) :
    operandsRR k (regText a) y = some (instrOfFields l { a := a, imm8 := n }) := by
  simp [operandsRR, parseReg_regText ha, hreg, hl, hy, litImm8_natCast hn]

theorem instrOfFields_op (k : Op) (f : RawFields) : (instrOfFields k f).op = k :=
  instrOf_op k _

theorem instrOfFields_fields (k : Op) {f : RawFields} (hf : f.inRange = true) :
    (instrOfFields k f).fields = usedFields k.format f := by
  rw [instrOfFields, instrOf_fields, wordFields_encodeFields _ (by decide) hf]

/-- Naming an instruction's own name and fields gives the instruction. -/
theorem instrOfFields_self (i : Instr) : instrOfFields i.op (usedFields i.op.format i.fields) = i := by
  rw [usedFields_fields]
  exact instrOf_encodeFields i (by decide)

end Sys2Proof.Machine
end

section
/-! Literals on a line, and the round trip through the assembly text (30_encoding.md R95 to R104). -/

namespace Sys2Proof.Machine

open Sys2Proof.Laws

/-! ## Literals and what follows them -/

theorem literalForm_format {k l : Op} (h : literalForm k = some l) : k.format = .rr ∧ l.format = .ri := by
  cases k <;> cases h <;> exact ⟨rfl, rfl⟩

theorem startsAsReg_of_digit {c : Char} (h : isDigit c = true) (cs : List Char) : startsAsReg (c :: cs) = false := by
  rw [startsAsReg, beq_eq_false_iff_ne]
  rintro rfl
  exact absurd h (by decide)

theorem startsAsReg_decimal_append (n : Nat) (rest : List Char) : startsAsReg (decimal n ++ rest) = false := by
  obtain ⟨c, cs, heq⟩ := List.exists_cons_of_ne_nil (decimal_ne_nil n)
  rw [heq, List.cons_append]
  exact startsAsReg_of_digit (isDigit_of_mem_decimal n c (heq ▸ List.mem_cons_self)) _

/-- Both spellings of an immediate instruction (R101, R102), with anything behind the literal. -/
theorem operands_literal {k l : Op} (hkl : (k.format = .ri ∧ l = k) ∨ literalForm k = some l) {a n : Nat} (ha : a < 8)
    (hn : n < 256) {rest : List Char} (hrest : ∀ c ∈ rest.head?, isDigit c = false) :
    operands k (some (regText a)) (some (decimal n ++ rest)) = some (instrOfFields l { a := a, imm8 := n }) := by
  have hlit := parseLit_decimal_append (n := n) (by omega) hrest
  obtain ⟨hri, rfl⟩ | hform := hkl
  · simp only [operands, hri, operandsRI_literal l ha hn hlit]
  · simp only [operands, (literalForm_format hform).1,
      operandsRR_literal hform ha hn (startsAsReg_decimal_append n rest) hlit]

theorem head?_rdropWhile_eq_or {α : Type} (p : α → Bool) (xs : List α) :
    (xs.rdropWhile p).head? = none ∨ (xs.rdropWhile p).head? = xs.head? := by
  have hsplit := List.rdropWhile_append_rtakeWhile (p := p) (l := xs)
  cases h : xs.rdropWhile p with
  | nil => exact .inl rfl
  | cons z zs => exact .inr (by rw [← hsplit, h, List.cons_append, List.head?_cons, List.head?_cons])

theorem assembleLine_lineRI_append {k l : Op} (hkl : (k.format = .ri ∧ l = k) ∨ literalForm k = some l) (a : RegIdx)
    (imm : Imm8) {c : Char} (hc : isDigit c = false) (rest : List Char) :
    assembleLine (lineRI k a imm ++ c :: rest) = some (instrOfFields l { a := a.toNat, imm8 := imm.toNat }) := by
  rw [lineRI, assembleLine_two_append k (solid_regText a.isLt) (solid_decimal _)]
  apply operands_literal hkl a.isLt imm.isLt
  obtain hnone | hsome := head?_rdropWhile_eq_or isBlank (c :: rest)
  · simp [hnone]
  · simpa [hsome] using hc

/-- Settles O46: the characters after a literal, trimmed or not, still begin with no digit. -/
theorem literalsEndAtTheFirstNonDigit : Obligations.LiteralsEndAtTheFirstNonDigit := by
  constructor
  · intro ds rest hne hds hrest
    rw [parseLit_append_of_stop hne hds hrest, parseLit_minus_append_of_stop hne hds hrest, cast_parseDigits hds]
    exact ⟨rfl, rfl⟩
  · intro k l a imm c rest hkl hc
    refine ⟨_, assembleLine_lineRI_append hkl a imm hc rest, instrOfFields_op l _, ?_⟩
    have hl : l.format = .ri := hkl.elim (fun ⟨hri, hlk⟩ => hlk ▸ hri) fun hform => (literalForm_format hform).2
    have hf : ({ a := a.toNat, imm8 := imm.toNat } : RawFields).inRange = true :=
      (rawFields_inRange_iff _).mpr ⟨a.isLt, Nat.zero_lt_succ 7, imm.isLt, Nat.zero_lt_succ 2047⟩
    rw [instrOfFields_fields l hf, hl]
    rfl

/-! ## One line -/

theorem assembleLine_asmText (i : Instr) : assembleLine (asmText i) = some i := by
  obtain ⟨ha, hb, hi8, hi11⟩ := (rawFields_inRange_iff _).mp (instr_wellFormed i)
  have hself := instrOfFields_self i
  unfold asmText
  cases hfmt : i.op.format <;> simp only [hfmt, usedFields] at hself ⊢
  case rr =>
    rw [assembleLine_two _ (solid_regText ha) (solid_regText hb)]
    simp only [operands, hfmt, operandsRR_regText _ ha hb, hself]
  case ri =>
    rw [assembleLine_two _ (solid_regText ha) (solid_decimal _)]
    simp only [operands, hfmt, operandsRI_literal _ ha hi8 (parseLit_decimal (by omega)), hself]
  case r =>
    rw [assembleLine_one _ (solid_regText ha)]
    simp only [operands, hfmt, parseReg_regText ha, Option.map_some, hself]
  case j =>
    rw [assembleLine_one _ (solid_decimal _)]
    simp only [operands, hfmt, parseLit_decimal (n := i.fields.imm11) (by omega), litImm11_natCast hi11, Option.map_some,
      hself]
  case z =>
    rw [assembleLine_mnemonic]
    simp only [operands, hfmt, hself]

theorem cleanLine_asmText (i : Instr) : CleanLine (asmText i) := by
  obtain ⟨ha, hb, -, -⟩ := (rawFields_inRange_iff _).mp (instr_wellFormed i)
  unfold asmText
  cases i.op.format with
  | rr => exact cleanLine_two _ (solid_regText ha) (solid_regText hb)
  | ri => exact cleanLine_two _ (solid_regText ha) (solid_decimal _)
  | r => exact cleanLine_one _ (solid_regText ha)
  | j => exact cleanLine_one _ (solid_decimal _)
  | z => exact (solid_mnemonic _).cleanLine

/-! ## A text of lines -/

theorem splitLines_append {l : List Char} (h : '\n' ∉ l) (rest : List Char) :
    splitLines (l ++ '\n' :: rest) = l :: splitLines rest := by
  induction l with
  | nil => simp [splitLines]
  | cons c l ih =>
    obtain ⟨hc, hl⟩ := not_or.mp (List.mem_cons.not.mp h)
    rw [List.cons_append, splitLines, if_neg (Ne.symm hc), ih hl]

theorem splitLines_of_not_mem {l : List Char} (h : '\n' ∉ l) : splitLines l = [l] := by
  induction l with
  | nil => rfl
  | cons c l ih =>
    obtain ⟨hc, hl⟩ := not_or.mp (List.mem_cons.not.mp h)
    rw [splitLines, if_neg (Ne.symm hc), ih hl]

/-- The lines of a text that the assembler reads (R95). -/
def nonBlankLines (text : List Char) : List (List Char) :=
  (splitLines text).filter fun l => !(trimBlanks l).isEmpty

theorem assemble_eq (text : List Char) : assemble text = assembleLines (nonBlankLines (trimBlanks text)) := rfl

theorem CleanLine.nonBlankLines_append {t : List Char} (h : CleanLine t) (rest : List Char) :
    nonBlankLines (t ++ '\n' :: rest) = t :: nonBlankLines rest := by
  simp [nonBlankLines, splitLines_append h.not_mem_newline, h.trimBlanks_eq, h.ne_nil]

theorem CleanLine.nonBlankLines_eq {t : List Char} (h : CleanLine t) : nonBlankLines t = [t] := by
  simp [nonBlankLines, splitLines_of_not_mem h.not_mem_newline, h.trimBlanks_eq, h.ne_nil]

/-- Trimming takes the newline that ends the last line, and nothing else. -/
theorem nonBlankLines_asmProgram (is : List Instr) :
    nonBlankLines ((asmProgram is).rdropWhile isBlank) = is.map asmText := by
  induction is with
  | nil => rfl
  | cons i is ih =>
    have hline := cleanLine_asmText i
    cases is with
    | nil =>
      have htrim : (asmProgram [i]).rdropWhile isBlank = asmText i := by
        simpa [asmProgram, isBlank, List.rdropWhile_singleton] using hline.rdropWhile_append [] ['\n']
      rw [htrim, hline.nonBlankLines_eq, List.map_singleton]
    | cons j js =>
      have htrim : (asmProgram (i :: j :: js)).rdropWhile isBlank =
          asmText i ++ '\n' :: (asmProgram (j :: js)).rdropWhile isBlank := by
        have hrest := (cleanLine_asmText j).rdropWhile_append
        have hsome := hrest (asmText i ++ ['\n']) ('\n' :: asmProgram js)
        have hnone := hrest [] ('\n' :: asmProgram js)
        simp only [asmProgram, List.append_assoc, List.cons_append, List.nil_append] at hsome hnone ⊢
        rw [hsome, hnone]
      rw [htrim, hline.nonBlankLines_append, ih, List.map_cons (l := j :: js)]

theorem trimBlanks_asmProgram (is : List Instr) : trimBlanks (asmProgram is) = (asmProgram is).rdropWhile isBlank := by
  cases is with
  | nil => rfl
  | cons i is => rw [trimBlanks_eq, asmProgram, (cleanLine_asmText i).dropWhile_append]

theorem assembleLines_map_asmText (is : List Instr) : assembleLines (is.map asmText) = some is := by
  induction is with
  | nil => rfl
  | cons i is ih => simp only [List.map_cons, assembleLines, assembleLine_asmText, ih]

theorem assemble_asmProgram (is : List Instr) : assemble (asmProgram is) = some is := by
  rw [assemble_eq, trimBlanks_asmProgram, nonBlankLines_asmProgram, assembleLines_map_asmText]

/-- Settles O10: line by line, then by induction over the lines; the image is that of the same instructions. -/
theorem assemblyRoundTrip : Obligations.AssemblyRoundTrip := by
  refine ⟨assembleLine_asmText, assemble_asmProgram, fun o is => ?_⟩
  rw [assembleImage, assemble_asmProgram, Option.map_some]

end Sys2Proof.Machine
end

section
/-! The stages of a step: fetch, decode and dispatch, execute (20_memory.md R47, 40_cycle_and_dispatch.md R110). -/

namespace Sys2Proof.Machine

open Sys2Proof.Laws

/-- A fetch in range reads the word at `pc` (R47). -/
theorem State.fetch_of_lt {s : State} (h : s.pc.toNat + 1 < s.cfg.memSize) : s.fetch = some (s.wordAt s.pc.toNat) :=
  State.memRead_word_of_lt h

theorem State.fetch_of_le {s : State} (h : s.cfg.memSize ≤ s.pc.toNat + 1) : s.fetch = none :=
  (s.memRead_word s.pc).trans (if_neg (Nat.not_lt.mpr h))

theorem step_of_fetch_none {s : State} (hrun : s.runState = .running) (hfetch : s.fetch = none) :
    step s = .next (s.Faulted .fetchOutOfRange s.pc) := by
  simp only [step, hrun, hfetch]
  rfl

/-- Settles O2: each stage decides by its own law, the fetch by its range and dispatch by the opcode. -/
theorem stepFollowsTheStages : Obligations.StepFollowsTheStages := by
  intro s hrun hinj
  refine ⟨fun hle => step_of_fetch_none hrun (State.fetch_of_le hle), fun hlt => ?_⟩
  have hfetch := State.fetch_of_lt hlt
  refine ⟨s.wordAt s.pc.toNat, s.toNat_wordAt _, fun hnone => ?_, fun k hk => ?_⟩
  · exact step_of_decode_error hrun hfetch ((decode_eq_error_iff _ _).mpr hnone)
  · exact step_of_decode hrun hfetch (decode_of_opcode hinj hk.symm)

/-- Settles O1: the word given by its two bytes is the one the fetch reads. -/
theorem stepRunsDecodedInstruction : Obligations.StepRunsDecodedInstruction := by
  intro s w i hrun hlt hbytes hdec
  have hw : s.wordAt s.pc.toNat = w := BitVec.eq_of_toNat_eq ((s.toNat_wordAt _).trans hbytes.symm)
  exact ⟨instr_wellFormed i, step_of_decode hrun (hw ▸ State.fetch_of_lt hlt) hdec⟩

/-- Settles O3: by O27 the state with the step's events replayed is the answer. -/
theorem stepAlwaysAnswersNext : Obligations.StepAlwaysAnswersNext :=
  fun s => ⟨s.replay (stepEvents s), datapathAgreesWithStep s⟩

end Sys2Proof.Machine
end

section
/-! The order of a step's events (40_cycle_and_dispatch.md R114): each stage gives at most one event, with a place in the stage's own
range, and the ranges follow one another. -/

namespace Sys2Proof.Machine

/-- The places of the events rise strictly, from `lo` on and below `hi`. -/
structure PlacesRise (lo hi : Nat) (es : List Event) : Prop where
  le : lo ≤ hi
  bounds : ∀ e ∈ es, lo ≤ eventPlace e ∧ eventPlace e < hi
  rising : es.Pairwise fun e f => eventPlace e < eventPlace f

namespace PlacesRise

theorem nil {lo hi : Nat} (h : lo ≤ hi) : PlacesRise lo hi [] :=
  ⟨h, by simp, .nil⟩

theorem singleton (e : Event) : PlacesRise (eventPlace e) (eventPlace e + 1) [e] :=
  ⟨Nat.le_succ _, by simp, List.pairwise_singleton _ _⟩

theorem append {lo mid hi : Nat} {es fs : List Event} (h : PlacesRise lo mid es) (h' : PlacesRise mid hi fs) :
    PlacesRise lo hi (es ++ fs) where
  le := h.le.trans h'.le
  bounds e he := by
    obtain hes | hfs := List.mem_append.mp he
    · exact (h.bounds e hes).imp_right (·.trans_le h'.le)
    · exact (h'.bounds e hfs).imp_left h.le.trans
  rising := List.pairwise_append.mpr
    ⟨h.rising, h'.rising, fun e he f hf => (h.bounds e he).2.trans_le (h'.bounds f hf).1⟩

theorem widen {lo hi hi' : Nat} {es : List Event} (h : PlacesRise lo hi es) (hle : hi ≤ hi') : PlacesRise lo hi' es :=
  ⟨h.le.trans hle, fun e he => (h.bounds e he).imp_right (·.trans_le hle), h.rising⟩

end PlacesRise

theorem dataEvents_placesRise (s : State) (i : Instr) : PlacesRise 2 3 (dataEvents s i) := by
  unfold dataEvents
  split
  · exact .nil (by decide)
  · exact .singleton (.dataRead _ _ _)
  · exact .singleton (.dataWrite _ _ _)

theorem regEvents_placesRise (s : State) (i : Instr) : PlacesRise 3 4 (regEvents s i) := by
  unfold regEvents
  split
  · exact .singleton (.regWrite _ _)
  · exact .nil (by decide)

theorem pcEvents_placesRise (s : State) (i : Instr) : PlacesRise 4 5 (pcEvents s i) := by
  unfold pcEvents
  split
  · exact .singleton (.pcWrite _)
  · exact .nil (by decide)

theorem haltEvents_placesRise (i : Instr) : PlacesRise 5 6 (haltEvents i) := by
  unfold haltEvents
  split
  · exact .singleton .haltWrite
  · exact .nil (by decide)

theorem workEvents_placesRise (s : State) (i : Instr) : PlacesRise 2 6 (workEvents s i) :=
  (dataEvents_placesRise s i).append (regEvents_placesRise s i) |>.append (pcEvents_placesRise s i)
    |>.append (haltEvents_placesRise i)

/-- A fault is the one event of its step after the fetch. -/
theorem raise_placesRise (f : Fault) (info : Word) : PlacesRise 1 7 [.raise f info] :=
  (PlacesRise.singleton (.raise f info)).widen (by decide : 2 ≤ 7)

theorem instrEvents_placesRise (s : State) (i : Instr) : PlacesRise 1 7 (instrEvents s i) := by
  cases hc : checkFault s i with
  | some r =>
    rw [instrEvents_of_fault hc]
    exact raise_placesRise r.cause r.info
  | none =>
    rw [instrEvents_of_pass hc]
    exact (PlacesRise.singleton .checksPassed).append ((workEvents_placesRise s i).append (.singleton .advance))

theorem fetchEvents_rising (s : State) : (fetchEvents s).Pairwise fun e f => eventPlace e < eventPlace f := by
  unfold fetchEvents
  split
  · exact (raise_placesRise _ _).rising
  · next w _ =>
    refine ((PlacesRise.singleton (.fetchRead s.pc w)).append (hi := 7) ?_).rising
    split
    · exact raise_placesRise _ _
    · exact instrEvents_placesRise s _

/-- Settles O28: in `Running` the fetch and the instruction's stages in their order; a stopped state has no events. -/
theorem eventsOfAStepAreOrdered : Obligations.EventsOfAStepAreOrdered := by
  intro s
  unfold stepEvents
  split
  · exact fetchEvents_rising s
  · exact .nil
  · exact .nil

end Sys2Proof.Machine
end

section
/-! The frame of every instruction (40_cycle_and_dispatch.md R116): what none of an instruction's events changes, the instruction
does not change. -/

namespace Sys2Proof.Machine

theorem exec_field_unchanged {α : Type} {i : Instr} {s t : State} (f : State → α) (h : exec i s = .next t)
    (hf : ∀ e ∈ instrEvents s i, ∀ u, f (u.applyEvent e) = f u) : f t = f s := by
  cases (exec_replays i s).symm.trans h
  exact State.replay_field f hf s

/-! ## `sp` and the parameters -/

theorem State.sp_applyEvent (u : State) (e : Event) : (u.applyEvent e).sp = u.sp := by
  cases e with
  | dataWrite a n v => obtain ⟨m, hm⟩ := u.applyEvent_dataWrite_mem a v n; rw [hm]
  | _ => rfl

theorem State.cfg_applyEvent (u : State) (e : Event) : (u.applyEvent e).cfg = u.cfg := by
  cases e with
  | dataWrite a n v => obtain ⟨m, hm⟩ := u.applyEvent_dataWrite_mem a v n; rw [hm]
  | _ => rfl

/-! ## Memory -/

/-- A write leaves every byte outside the `n` bytes at its address (R45). -/
theorem State.byteAt_memWrite_of_outside {s t : State} {a v : Word} {n : Width} (h : s.memWrite a n v = some t) {k : Nat}
    (hk : k < a.toNat ∨ a.toNat + n.bytes ≤ k) : t.byteAt k = s.byteAt k := by
  cases n with
  | byte =>
    rw [Width.bytes] at hk
    exact State.byteAt_memWrite_byte_of_ne h (by omega)
  | word =>
    rw [Width.bytes] at hk
    rw [State.byteAt_memWrite_word h, if_neg (by omega), if_neg (by omega)]

theorem State.byteAt_dataWrite_of_outside (u : State) {a : Word} {n : Width} (v : Word) {k : Nat}
    (hk : k < a.toNat ∨ a.toNat + n.bytes ≤ k) : (u.applyEvent (.dataWrite a n v)).byteAt k = u.byteAt k := by
  rw [State.applyEvent_dataWrite]
  cases hw : u.memWrite a n v with
  | none => rfl
  | some t => exact State.byteAt_memWrite_of_outside hw hk

/-- The place of a data write is that of the data access alone (R114). -/
theorem mem_dataEvents_of_mem_workEvents {s : State} {i : Instr} {a v : Word} {n : Width}
    (h : .dataWrite a n v ∈ workEvents s i) : .dataWrite a n v ∈ dataEvents s i := by
  simp only [workEvents, List.mem_append] at h
  obtain ((hdata | hreg) | hpc) | hhalt := h
  · exact hdata
  · exact absurd ((regEvents_placesRise s i).bounds _ hreg).1 (by decide : ¬ 3 ≤ 2)
  · exact absurd ((pcEvents_placesRise s i).bounds _ hpc).1 (by decide : ¬ 4 ≤ 2)
  · exact absurd ((haltEvents_placesRise i).bounds _ hhalt).1 (by decide : ¬ 5 ≤ 2)

/-- A data write among an instruction's events is its one data access (R50). -/
theorem dataAccess_of_mem_instrEvents {s : State} {i : Instr} {a v : Word} {n : Width}
    (h : .dataWrite a n v ∈ instrEvents s i) : dataAccess s i = some (.write a n v) := by
  cases hc : checkFault s i with
  | some r => simp [instrEvents_of_fault hc] at h
  | none =>
    have hwork : .dataWrite a n v ∈ workEvents s i := by simpa [instrEvents_of_pass hc] using h
    have hdata := mem_dataEvents_of_mem_workEvents hwork
    unfold dataEvents at hdata
    split at hdata
    · cases hdata
    · cases List.mem_singleton.mp hdata
    · next haccess =>
      cases List.mem_singleton.mp hdata
      exact haccess

theorem exec_byteAt_unchanged {i : Instr} {s t : State} {k : Nat} (h : exec i s = .next t)
    (hk : ∀ a n v, dataAccess s i = some (.write a n v) → k < a.toNat ∨ a.toNat + n.bytes ≤ k) :
    t.byteAt k = s.byteAt k := by
  refine exec_field_unchanged (State.byteAt · k) h fun e he u => ?_
  cases e with
  | dataWrite a n v => exact u.byteAt_dataWrite_of_outside v (hk a n v (dataAccess_of_mem_instrEvents he))
  | _ => rfl

/-! ## `pc` -/

theorem pcAfter_of_not_jump (s : State) {i : Instr} (h : ∀ imm, ¬ IsJump i imm) :
    pcAfter s i = (s.pc.toNat + 2) % 65536 := by
  obtain hnext | ⟨imm, hjump, -⟩ := pcAfter_cases s i
  · exact hnext
  · exact absurd hjump (h imm)

theorem exec_advanced_of_not_jump {i : Instr} {s t : State} (h : exec i s = .next t) (hs : s.fault = none)
    (ht : t.fault = none) (hi : ∀ imm, ¬ IsJump i imm) : Advanced s t := by
  obtain ⟨hne, -⟩ | ⟨-, hpc⟩ := exec_pc hs h
  · exact absurd ht hne
  · exact hpc.trans (pcAfter_of_not_jump s hi)

/-- Settles O20, part by part: no event touches `sp` or the parameters, and the others only what their rule assigns. -/
theorem instructionsChangeOnlyWhatTheirRulesAssign : Obligations.InstructionsChangeOnlyWhatTheirRulesAssign :=
  fun _ _ _ h =>
    ⟨fun _ => exec_reg_unchanged h,
      fun _ => exec_byteAt_unchanged h,
      exec_field_unchanged State.sp h fun e _ u => u.sp_applyEvent e,
      exec_field_unchanged State.cfg h fun e _ u => u.cfg_applyEvent e,
      exec_halt_unchanged h,
      exec_advanced_of_not_jump h⟩

end Sys2Proof.Machine
end

section
/-! What the statements say of an instruction's number, word and line, for the two formats with field `A` at bit 5 and a second
operand (30_encoding.md R73, R74, R101, R102). -/

namespace Sys2Proof.Machine

open Sys2Proof.Laws

/-- A word with an instruction's number and fields decodes to it, whatever its other bits are (R75, R82). -/
theorem decode_of_wordFields {o : OpNum} (ho : o.injective = true) {w : Word} {i : Instr} (hop : fieldOpcode w = o.num i.op)
    (hfields : wordFields i.op.format w = i.fields) : decode o w = .ok i :=
  (decode_eq_ok_iff ho).mpr ⟨hop, (instrOf_eq_of_wordFields hfields).symm⟩

/-! ## Format RR -/

/-- Constructor `mk` is the instruction named `k`, of format RR, with fields `A` and `B`. -/
structure FormRR (k : Op) (mk : RegIdx → RegIdx → Instr) : Prop where
  format : k.format = .rr
  op : ∀ a b, (mk a b).op = k
  fields : ∀ a b, (mk a b).fields = { a := a.toNat, b := b.toNat }

namespace FormRR

variable {k : Op} {mk : RegIdx → RegIdx → Instr}

theorem toNat_encode (h : FormRR k mk) (o : OpNum) (a b : RegIdx) :
    (encode o (mk a b)).toNat = (o.num k).toNat + 32 * a.toNat + 256 * b.toNat := by
  rw [encode, toNat_encodeFields _ (o.num _).isLt (instr_wellFormed _), h.op, h.fields, h.format]

/-- Bits 15..11 are ignored (R75). -/
theorem decode_append (h : FormRR k mk) {o : OpNum} (ho : o.injective = true) (u : BitVec 5) (a b : RegIdx) :
    decode o (u ++ b ++ a ++ o.num k) = .ok (mk a b) := by
  obtain ⟨hop, ha, hb⟩ := fields_rr u b a (o.num k)
  apply decode_of_wordFields ho
  · rw [hop, h.op]
  · rw [h.op, h.fields, h.format, wordFields, usedFields, ha, hb]

theorem asmText_eq (h : FormRR k mk) (a b : RegIdx) : asmText (mk a b) = lineRR k a b := by
  simp only [asmText, h.op, h.fields, h.format, lineRR]

theorem coded (h : FormRR k mk) {n : Nat} (hn : (OpNum.default.num k).toNat = n) : CodedRR k n mk := by
  refine ⟨hn, fun o ho a b => ⟨h.toNat_encode o a b, fun u => h.decode_append ho u a b⟩, fun a b => ?_⟩
  rw [← h.asmText_eq]
  exact assembleLine_asmText (mk a b)

end FormRR

/-! ## Format RI -/

/-- Constructor `mk` is the instruction named `k`, of format RI, with fields `A` and `imm8`. -/
structure FormRI (k : Op) (mk : RegIdx → Imm8 → Instr) : Prop where
  format : k.format = .ri
  op : ∀ a imm, (mk a imm).op = k
  fields : ∀ a imm, (mk a imm).fields = { a := a.toNat, imm8 := imm.toNat }

namespace FormRI

variable {k l : Op} {mk : RegIdx → Imm8 → Instr}

theorem toNat_encode (h : FormRI k mk) (o : OpNum) (a : RegIdx) (imm : Imm8) :
    (encode o (mk a imm)).toNat = (o.num k).toNat + 32 * a.toNat + 256 * imm.toNat := by
  rw [encode, toNat_encodeFields _ (o.num _).isLt (instr_wellFormed _), h.op, h.fields, h.format]

theorem decode_append (h : FormRI k mk) {o : OpNum} (ho : o.injective = true) (a : RegIdx) (imm : Imm8) :
    decode o (imm ++ a ++ o.num k) = .ok (mk a imm) := by
  obtain ⟨hop, ha, himm⟩ := fields_ri imm a (o.num k)
  apply decode_of_wordFields ho
  · rw [hop, h.op]
  · rw [h.op, h.fields, h.format, wordFields, usedFields, ha, himm]

theorem asmText_eq (h : FormRI k mk) (a : RegIdx) (imm : Imm8) : asmText (mk a imm) = lineRI k a imm := by
  simp only [asmText, h.op, h.fields, h.format, lineRI]

theorem coded (h : FormRI k mk) {n : Nat} (hn : (OpNum.default.num k).toNat = n) : CodedRI k n mk := by
  refine ⟨hn, fun o ho a imm => ⟨h.toNat_encode o a imm, h.decode_append ho a imm⟩, fun a imm => ?_⟩
  rw [← h.asmText_eq]
  exact assembleLine_asmText (mk a imm)

theorem instrOfFields_eq (h : FormRI k mk) (a : RegIdx) (imm : Imm8) :
    instrOfFields k { a := a.toNat, imm8 := imm.toNat } = mk a imm := by
  have hself := instrOfFields_self (mk a imm)
  rwa [usedFields_fields, h.op, h.fields] at hself

/-- A literal behind the register form's mnemonic gives the immediate form (R102). -/
theorem alsoWritten (h : FormRI l mk) (hkl : literalForm k = some l) : AlsoWritten k mk := by
  intro a imm
  have hoperands := operands_literal (.inr hkl) a.isLt imm.isLt (rest := []) (by simp)
  rw [List.append_nil, h.instrOfFields_eq] at hoperands
  rw [lineRI, assembleLine_two k (solid_regText a.isLt) (solid_decimal _), hoperands]

end FormRI

end Sys2Proof.Machine
end

section
/-! The move instructions (41_move.md R130, R131). -/

namespace Sys2Proof.Machine

theorem formRR_mov : FormRR .mov .mov :=
  ⟨rfl, fun _ _ => rfl, fun _ _ => rfl⟩

theorem formRI_movi : FormRI .movi .movi :=
  ⟨rfl, fun _ _ => rfl, fun _ _ => rfl⟩

theorem exec_mov (a b : RegIdx) (s : State) : exec (.mov a b) s = .next (s.setReg a (s.reg b)).advance := rfl

theorem exec_movi (a : RegIdx) (imm : Imm8) (s : State) :
    exec (.movi a imm) s = .next (s.setReg a (zextImm8 imm)).advance := rfl

/-- Settles O29: the codec parts hold by format, and each meaning is one register write and the advance. -/
theorem moveInstructions : Obligations.MoveInstructions := by
  refine ⟨formRR_mov.coded rfl, formRI_movi.coded rfl, formRI_movi.alsoWritten rfl, fun a b s => ?_, fun a imm s => ?_⟩
  · exact ⟨_, exec_mov a b s, writesReg_setReg s a (s.reg b)⟩
  · rw [← toNat_zextImm8 imm]
    exact ⟨_, exec_movi a imm s, writesReg_setReg s a (zextImm8 imm)⟩

end Sys2Proof.Machine
end

section
/-! What the statements say of an instruction's number, word and line, for format J, whose one operand fills the bits above the
opcode (30_encoding.md R73, R74, R101). -/

namespace Sys2Proof.Machine

open Sys2Proof.Laws

/-- Constructor `mk` is the instruction named `k`, of format J, with field `imm11`. -/
structure FormJ (k : Op) (mk : Imm11 → Instr) : Prop where
  format : k.format = .j
  op : ∀ imm, (mk imm).op = k
  fields : ∀ imm, (mk imm).fields = { imm11 := imm.toNat }

namespace FormJ

variable {k : Op} {mk : Imm11 → Instr}

theorem toNat_encode (h : FormJ k mk) (o : OpNum) (imm : Imm11) :
    (encode o (mk imm)).toNat = (o.num k).toNat + 32 * imm.toNat := by
  rw [encode, toNat_encodeFields _ (o.num _).isLt (instr_wellFormed _), h.op, h.fields, h.format]

theorem decode_append (h : FormJ k mk) {o : OpNum} (ho : o.injective = true) (imm : Imm11) :
    decode o (imm ++ o.num k) = .ok (mk imm) := by
  obtain ⟨hop, himm⟩ := fields_j imm (o.num k)
  apply decode_of_wordFields ho
  · rw [hop, h.op]
  · rw [h.op, h.fields, h.format, wordFields, usedFields, himm]

theorem asmText_eq (h : FormJ k mk) (imm : Imm11) : asmText (mk imm) = mnemonic k ++ ' ' :: decimal imm.toNat := by
  simp only [asmText, h.op, h.fields, h.format]

theorem coded (h : FormJ k mk) {n : Nat} (hn : (OpNum.default.num k).toNat = n) : CodedJ k n mk := by
  refine ⟨hn, fun o ho imm => ⟨h.toNat_encode o imm, h.decode_append ho imm⟩, fun imm => ?_⟩
  rw [← h.asmText_eq]
  exact assembleLine_asmText (mk imm)

end FormJ

end Sys2Proof.Machine
end

section
/-! Compare and the conditional jumps (42_compare_branch.md R141 to R146). -/

namespace Sys2Proof.Machine

/-! ## CMP -/

theorem formRR_cmp : FormRR .cmp .cmp :=
  ⟨rfl, fun _ _ => rfl, fun _ _ => rfl⟩

theorem exec_cmp (a b : RegIdx) (s : State) :
    exec (.cmp a b) s = .next (s.setReg 0#3 (compareCode (s.reg a) (s.reg b))).advance := rfl

/-- Settles O30: the one register write of CMP is the comparison code, whose number is `toNat_compareCode`. -/
theorem compareWritesTheCode : Obligations.CompareWritesTheCode := by
  refine ⟨formRR_cmp.coded rfl, fun a b s => ?_⟩
  rw [← toNat_compareCode]
  exact ⟨_, exec_cmp a b s, writesReg_setReg s 0#3 (compareCode (s.reg a) (s.reg b))⟩

/-! ## The jumps -/

theorem formJ_je : FormJ .je .je :=
  ⟨rfl, fun _ => rfl, fun _ => rfl⟩

theorem formJ_jn : FormJ .jn .jn :=
  ⟨rfl, fun _ => rfl, fun _ => rfl⟩

theorem formJ_jg : FormJ .jg .jg :=
  ⟨rfl, fun _ => rfl, fun _ => rfl⟩

theorem formJ_jl : FormJ .jl .jl :=
  ⟨rfl, fun _ => rfl, fun _ => rfl⟩

theorem exec_je (imm : Imm11) (s : State) : exec (.je imm) s = s.jumpIf condE imm := rfl

theorem exec_jn (imm : Imm11) (s : State) : exec (.jn imm) s = s.jumpIf condN imm := rfl

theorem exec_jg (imm : Imm11) (s : State) : exec (.jg imm) s = s.jumpIf condG imm := rfl

theorem exec_jl (imm : Imm11) (s : State) : exec (.jl imm) s = s.jumpIf condL imm := rfl

/-- A jump completes, and whether it is taken or not it changes `pc` alone (R142). -/
theorem exec_writesPc_of_jumpIf {i : Instr} {s : State} {cond : Word → Bool} {imm : Imm11} {c : Prop} [Decidable c]
    (he : exec i s = s.jumpIf cond imm) (hc : cond (s.reg 0#3) = true ↔ c) :
    ∃ t, exec i s = .next t ∧ WritesPc (if c then imm.toNat + 2 else (s.pc.toNat + 2) % 65536) s t := by
  obtain ⟨hcond, hjump⟩ | ⟨hcond, hjump⟩ := s.jumpIf_cases cond imm
  · rw [if_pos (hc.mp hcond)]
    exact ⟨_, he.trans hjump, writesPc_setPc s imm⟩
  · rw [if_neg (mt hc.mpr (by simp [hcond]))]
    exact ⟨_, he.trans hjump, writesPc_advance s⟩

/-- Settles O31: both jump on whether `x[0]` is 1, JN with the two branches exchanged. -/
theorem jumpsOnEquality : Obligations.JumpsOnEquality := by
  refine ⟨formJ_je.coded rfl, formJ_jn.coded rfl, fun imm s => ?_, fun imm s => ?_⟩
  · exact exec_writesPc_of_jumpIf (exec_je imm s) (condE_iff _)
  · rw [← ite_not]
    exact exec_writesPc_of_jumpIf (exec_jn imm s) (condN_iff _)

/-- Settles O32: the signed reading of JL is the condition on the unsigned number that `condL_iff` states. -/
theorem jumpsOnOrder : Obligations.JumpsOnOrder :=
  ⟨formJ_jg.coded rfl, formJ_jl.coded rfl,
    fun imm s => exec_writesPc_of_jumpIf (exec_jg imm s) (condG_iff _),
    fun imm s => exec_writesPc_of_jumpIf (exec_jl imm s) (condL_iff _)⟩

/-! ## A jump out of memory -/

/-- Each jump gives `pc` the value of its row in the table of R16 and changes nothing else. -/
theorem exec_writesPc_of_isJump {i : Instr} {imm : Imm11} (h : IsJump i imm) (s : State) :
    ∃ t, exec i s = .next t ∧ WritesPc (pcAfter s i) s t := by
  obtain rfl | rfl | rfl | rfl := h
  · exact exec_writesPc_of_jumpIf (exec_je imm s) (condE_iff _)
  · exact exec_writesPc_of_jumpIf (exec_jn imm s) (condN_iff _)
  · exact exec_writesPc_of_jumpIf (exec_jg imm s) (condG_iff _)
  · exact exec_writesPc_of_jumpIf (exec_jl imm s) ((condL_iff _).trans (toInt_lt_one_iff _).symm)

theorem SameControl.runState_eq {s t : State} (h : SameControl s t) : t.runState = s.runState := by
  rw [State.runState, State.runState, h.fault, h.halt]

/-- Settles O24: the jump itself checks no range, and at its target the fetch finds no room for a word. -/
theorem jumpOutOfRangeFaultsAtTheNextFetch : Obligations.JumpOutOfRangeFaultsAtTheNextFetch := by
  intro s i imm hjump hrun htaken hsize
  obtain ⟨t, hexec, hpc, -, -, hcontrol⟩ := exec_writesPc_of_isJump hjump s
  have htarget : t.pc.toNat = imm.toNat + 2 := hpc.trans htaken
  have htrun : t.runState = .running := hcontrol.runState_eq.trans hrun
  have hroom : t.cfg.memSize ≤ t.pc.toNat + 1 := by
    rw [hcontrol.cfg, htarget]
    exact hsize
  exact ⟨t, hexec, htrun, htarget, step_of_fetch_none htrun (State.fetch_of_le hroom)⟩

end Sys2Proof.Machine
end

section
/-! Integer arithmetic (43_arithmetic.md R160 to R166). -/

namespace Sys2Proof.Machine

/-- An instruction that ends in one register write and the advance has exactly that effect (R12, R116). -/
theorem exec_writesReg_of_setReg {i : Instr} {s : State} {d : RegIdx} {v : Word} {n : Nat}
    (he : exec i s = .next (s.setReg d v).advance) (hv : v.toNat = n) : ∃ t, exec i s = .next t ∧ WritesReg d n s t :=
  ⟨_, he, hv ▸ writesReg_setReg s d v⟩

/-! ## ADD and ADDI -/

theorem formRR_add : FormRR .add .add :=
  ⟨rfl, fun _ _ => rfl, fun _ _ => rfl⟩

theorem formRI_addi : FormRI .addi .addi :=
  ⟨rfl, fun _ _ => rfl, fun _ _ => rfl⟩

theorem exec_add (a b : RegIdx) (s : State) :
    exec (.add a b) s = .next (s.setReg a (s.reg a + s.reg b)).advance := rfl

theorem exec_addi (a : RegIdx) (imm : Imm8) (s : State) :
    exec (.addi a imm) s = .next (s.setReg a (s.reg a + zextImm8 imm)).advance := rfl

theorem toNat_add_zextImm8 (v : Word) (imm : Imm8) : (v + zextImm8 imm).toNat = (v.toNat + imm.toNat) % 65536 := by
  rw [BitVec.toNat_add, toNat_zextImm8]

/-- Settles O34: each meaning is one register write, of the 16-bit sum, and the advance. -/
theorem additionWraps : Obligations.AdditionWraps := by
  refine ⟨formRR_add.coded rfl, formRI_addi.coded rfl, formRI_addi.alsoWritten rfl, fun a b s => ?_, fun a imm s => ?_⟩
  · exact exec_writesReg_of_setReg (exec_add a b s) (BitVec.toNat_add _ _)
  · exact exec_writesReg_of_setReg (exec_addi a imm s) (toNat_add_zextImm8 _ imm)

/-! ## SUB and SUBI -/

theorem formRR_sub : FormRR .sub .sub :=
  ⟨rfl, fun _ _ => rfl, fun _ _ => rfl⟩

theorem formRI_subi : FormRI .subi .subi :=
  ⟨rfl, fun _ _ => rfl, fun _ _ => rfl⟩

theorem exec_sub (a b : RegIdx) (s : State) :
    exec (.sub a b) s = .next (s.setReg a (s.reg a - s.reg b)).advance := rfl

theorem exec_subi (a : RegIdx) (imm : Imm8) (s : State) :
    exec (.subi a imm) s = .next (s.setReg a (s.reg a - zextImm8 imm)).advance := rfl

/-- A difference as the statements write it, with the modulus added before the subtraction of natural numbers. -/
theorem toNat_sub_word (v w : Word) : (v - w).toNat = (v.toNat + 65536 - w.toNat) % 65536 := by
  have := w.isLt
  rw [BitVec.toNat_sub]
  omega

theorem toNat_sub_zextImm8 (v : Word) (imm : Imm8) :
    (v - zextImm8 imm).toNat = (v.toNat + 65536 - imm.toNat) % 65536 := by
  rw [toNat_sub_word, toNat_zextImm8]

/-- Settles O35: each meaning is one register write, of the 16-bit difference, and the advance. -/
theorem subtractionWraps : Obligations.SubtractionWraps := by
  refine ⟨formRR_sub.coded rfl, formRI_subi.coded rfl, formRI_subi.alsoWritten rfl, fun a b s => ?_, fun a imm s => ?_⟩
  · exact exec_writesReg_of_setReg (exec_sub a b s) (toNat_sub_word _ _)
  · exact exec_writesReg_of_setReg (exec_subi a imm s) (toNat_sub_zextImm8 _ imm)

/-! ## MOD and MODI -/

theorem formRR_mod : FormRR .mod .mod :=
  ⟨rfl, fun _ _ => rfl, fun _ _ => rfl⟩

theorem formRI_modi : FormRI .modi .modi :=
  ⟨rfl, fun _ _ => rfl, fun _ _ => rfl⟩

theorem exec_mod (a b : RegIdx) (s : State) : exec (.mod a b) s = s.remainder a (s.reg b) := rfl

theorem exec_modi (a : RegIdx) (imm : Imm8) (s : State) : exec (.modi a imm) s = s.remainder a (zextImm8 imm) := rfl

theorem zextImm8_eq_zero_iff (imm : Imm8) : zextImm8 imm = 0#16 ↔ imm = 0#8 := by
  rw [← BitVec.toNat_inj, ← BitVec.toNat_inj, toNat_zextImm8]
  rfl

theorem exec_writesReg_of_remainder {i : Instr} {s : State} {a : RegIdx} {d : Word} (he : exec i s = s.remainder a d)
    (hd : d ≠ 0#16) :
    ∃ t, exec i s = .next t ∧ WritesReg a ((s.reg a).toNat % d.toNat) s t ∧ (t.reg a).toNat < d.toNat := by
  obtain ⟨-, hrem⟩ | ⟨hzero, -⟩ := s.remainder_cases a d
  · obtain ⟨t, ht, hwrites⟩ := exec_writesReg_of_setReg (he.trans hrem) BitVec.toNat_umod
    have hpos : 0 < d.toNat := Nat.pos_of_ne_zero fun h => hd (BitVec.eq_of_toNat_eq h)
    exact ⟨t, ht, hwrites, hwrites.value ▸ Nat.mod_lt _ hpos⟩
  · exact absurd hzero hd

/-- The fault names the fetched word, which is still the word at `pc` (R165, R166, R241). -/
theorem step_divideByZero_of_remainder {i : Instr} {s : State} {a : RegIdx} {d w : Word} (hrun : s.runState = .running)
    (hfetch : s.fetch = some w) (hdec : decode s.cfg.opnum w = .ok i) (he : exec i s = s.remainder a d) (hd : d = 0#16) :
    step s = .next (s.Faulted .divideByZero w) := by
  obtain ⟨hne, -⟩ | ⟨-, hrem⟩ := s.remainder_cases a d
  · exact absurd hd hne
  · rw [step_of_decode hrun hfetch hdec, he, hrem, instrWord_of_fetch hfetch]
    rfl

/-- Settles O36: both are `State.remainder`, which writes the remainder or raises the fault; an immediate is 0 exactly when its
extension is. -/
theorem remainderOrDivideByZero : Obligations.RemainderOrDivideByZero := by
  refine ⟨formRR_mod.coded rfl, formRI_modi.coded rfl, formRI_modi.alsoWritten rfl, fun a b s hb => ?_,
    fun a b w s hrun hfetch hdec hb => ?_, fun a imm s himm => ?_, fun a w s hrun hfetch hdec => ?_⟩
  · exact exec_writesReg_of_remainder (exec_mod a b s) hb
  · exact step_divideByZero_of_remainder hrun hfetch hdec (exec_mod a b s) hb
  · rw [← toNat_zextImm8 imm]
    exact exec_writesReg_of_remainder (exec_modi a imm s) (mt (zextImm8_eq_zero_iff imm).mp himm)
  · exact step_divideByZero_of_remainder hrun hfetch hdec (exec_modi a 0#8 s) ((zextImm8_eq_zero_iff 0#8).mpr rfl)

end Sys2Proof.Machine
end

section
/-! Bitwise logic and shifts (44_logic_shift.md R181 to R188). -/

namespace Sys2Proof.Machine

/-! ## AND, OR and XOR -/

/-- `exec_writesReg_of_setReg` for a value that is known bit by bit. -/
theorem exec_writesBits_of_setReg {i : Instr} {s : State} {d : RegIdx} {v : Word} {f : Nat → Bool}
    (he : exec i s = .next (s.setReg d v).advance) (hf : ∀ n, v.getLsbD n = f n) :
    ∃ t, exec i s = .next t ∧ WritesReg d (t.reg d).toNat s t ∧ ∀ n, (t.reg d).getLsbD n = f n := by
  obtain ⟨t, ht, hwrites⟩ := exec_writesReg_of_setReg he rfl
  have hvalue : t.reg d = v := BitVec.eq_of_toNat_eq hwrites.value
  exact ⟨t, ht, by rwa [hvalue], fun n => by rw [hvalue, hf]⟩

theorem formRR_and : FormRR .and .and :=
  ⟨rfl, fun _ _ => rfl, fun _ _ => rfl⟩

theorem formRR_or : FormRR .or .or :=
  ⟨rfl, fun _ _ => rfl, fun _ _ => rfl⟩

theorem formRR_xor : FormRR .xor .xor :=
  ⟨rfl, fun _ _ => rfl, fun _ _ => rfl⟩

theorem exec_and (a b : RegIdx) (s : State) :
    exec (.and a b) s = .next (s.setReg a (s.reg a &&& s.reg b)).advance := rfl

theorem exec_or (a b : RegIdx) (s : State) :
    exec (.or a b) s = .next (s.setReg a (s.reg a ||| s.reg b)).advance := rfl

theorem exec_xor (a b : RegIdx) (s : State) :
    exec (.xor a b) s = .next (s.setReg a (s.reg a ^^^ s.reg b)).advance := rfl

/-- Settles O37: each meaning is one register write of a word whose bits the library states, and the advance. -/
theorem logicIsBitwise : Obligations.LogicIsBitwise := by
  refine ⟨formRR_and.coded rfl, formRR_or.coded rfl, formRR_xor.coded rfl, fun a b s => ?_, fun a b s => ?_,
    fun a b s => ?_⟩
  · exact exec_writesBits_of_setReg (exec_and a b s) fun _ => BitVec.getLsbD_and
  · exact exec_writesBits_of_setReg (exec_or a b s) fun _ => BitVec.getLsbD_or
  · exact exec_writesBits_of_setReg (exec_xor a b s) fun _ => BitVec.getLsbD_xor

/-! ## BSL and BSLI -/

theorem formRR_bsl : FormRR .bsl .bsl :=
  ⟨rfl, fun _ _ => rfl, fun _ _ => rfl⟩

theorem formRI_bsli : FormRI .bsli .bsli :=
  ⟨rfl, fun _ _ => rfl, fun _ _ => rfl⟩

theorem exec_bsl (a b : RegIdx) (s : State) :
    exec (.bsl a b) s = .next (s.setReg a (shiftLeft (s.reg a) (s.reg b).toNat)).advance := rfl

theorem exec_bsli (a : RegIdx) (imm : Imm8) (s : State) :
    exec (.bsli a imm) s = .next (s.setReg a (shiftLeft (s.reg a) imm.toNat)).advance := rfl

/-- Settles O38: each meaning is one register write, of the shifted word whose number is `toNat_shiftLeft`, and the advance. -/
theorem leftShifts : Obligations.LeftShifts := by
  refine ⟨formRR_bsl.coded rfl, formRI_bsli.coded rfl, fun a b s => ?_, fun a imm s => ?_⟩
  · exact exec_writesReg_of_setReg (exec_bsl a b s) (toNat_shiftLeft _ _)
  · exact exec_writesReg_of_setReg (exec_bsli a imm s) (toNat_shiftLeft _ _)

/-! ## BSR and BSRI -/

theorem formRR_bsr : FormRR .bsr .bsr :=
  ⟨rfl, fun _ _ => rfl, fun _ _ => rfl⟩

theorem formRI_bsri : FormRI .bsri .bsri :=
  ⟨rfl, fun _ _ => rfl, fun _ _ => rfl⟩

theorem exec_bsr (a b : RegIdx) (s : State) :
    exec (.bsr a b) s = .next (s.setReg a (shiftRight (s.reg a) (s.reg b).toNat)).advance := rfl

theorem exec_bsri (a : RegIdx) (imm : Imm8) (s : State) :
    exec (.bsri a imm) s = .next (s.setReg a (shiftRight (s.reg a) imm.toNat)).advance := rfl

/-- Settles O39: each meaning is one register write, of the shifted word whose number is `toNat_shiftRight`, and the advance. -/
theorem rightShifts : Obligations.RightShifts := by
  refine ⟨formRR_bsr.coded rfl, formRI_bsri.coded rfl, fun a b s => ?_, fun a imm s => ?_⟩
  · exact exec_writesReg_of_setReg (exec_bsr a b s) (toNat_shiftRight _ _)
  · exact exec_writesReg_of_setReg (exec_bsri a imm s) (toNat_shiftRight _ _)

end Sys2Proof.Machine
end

section
/-! Loads and stores (45_load_store.md R201 to R204): what an access in range does, and the fault of one out of range. -/

namespace Sys2Proof.Machine

/-! ## Out of range -/

theorem State.inRange_word_eq_false {s : State} {a : Word} (h : s.cfg.memSize ≤ a.toNat + 1) : s.inRange a .word = false := by
  rw [← Bool.not_eq_true, State.inRange_word]
  exact h.not_gt

theorem State.inRange_byte_eq_false {s : State} {a : Word} (h : s.cfg.memSize ≤ a.toNat) : s.inRange a .byte = false := by
  rw [← Bool.not_eq_true, State.inRange_byte]
  exact h.not_gt

/-! ## Loads -/

/-- A load that reads a value is one write of it to the register, and the advance (R201, R202, R222). -/
theorem exec_writesReg_of_loadInto {i : Instr} {s : State} {d : RegIdx} {a v : Word} {n : Width} {k : Nat}
    (he : exec i s = s.loadInto d a n) (hread : s.memRead a n = some v) (hv : v.toNat = k) :
    ∃ t, exec i s = .next t ∧ WritesReg d k s t := by
  obtain ⟨u, hu, hload⟩ | ⟨hnone, -⟩ := s.loadInto_cases d a n
  · cases hread.symm.trans hu
    exact exec_writesReg_of_setReg (he.trans hload) hv
  · cases hread.symm.trans hnone

theorem exec_faulted_of_loadInto {i : Instr} {s : State} {d : RegIdx} {a : Word} {n : Width}
    (he : exec i s = s.loadInto d a n) (hr : s.inRange a n = false) :
    exec i s = .next (s.Faulted .loadOutOfRange a) := by
  obtain ⟨v, hread, -⟩ | ⟨-, hload⟩ := s.loadInto_cases d a n
  · rw [← s.memRead_isSome, hread] at hr
    cases hr
  · exact he.trans hload

theorem exec_loadWord {i : Instr} {s : State} {d : RegIdx} {a : Word} (he : exec i s = s.loadInto d a .word) :
    (a.toNat + 1 < s.cfg.memSize → ∃ t, exec i s = .next t ∧
      WritesReg d ((s.byteAt a.toNat).toNat + 256 * (s.byteAt (a.toNat + 1)).toNat) s t) ∧
    (s.cfg.memSize ≤ a.toNat + 1 → exec i s = .next (s.Faulted .loadOutOfRange a)) :=
  ⟨fun hlt => exec_writesReg_of_loadInto he (State.memRead_word_of_lt hlt) (s.toNat_wordAt _),
    fun hle => exec_faulted_of_loadInto he (State.inRange_word_eq_false hle)⟩

theorem exec_loadByte {i : Instr} {s : State} {d : RegIdx} {a : Word} (he : exec i s = s.loadInto d a .byte) :
    (a.toNat < s.cfg.memSize → ∃ t, exec i s = .next t ∧ WritesReg d (s.byteAt a.toNat).toNat s t) ∧
    (s.cfg.memSize ≤ a.toNat → exec i s = .next (s.Faulted .loadOutOfRange a)) := by
  refine ⟨fun hlt => ?_, fun hle => exec_faulted_of_loadInto he (State.inRange_byte_eq_false hle)⟩
  obtain ⟨v, hread, hv⟩ := State.memRead_byte_of_lt hlt
  exact exec_writesReg_of_loadInto he hread hv

theorem formRR_ldw : FormRR .ldw .ldw :=
  ⟨rfl, fun _ _ => rfl, fun _ _ => rfl⟩

theorem formRR_ldb : FormRR .ldb .ldb :=
  ⟨rfl, fun _ _ => rfl, fun _ _ => rfl⟩

theorem exec_ldw (a b : RegIdx) (s : State) : exec (.ldw a b) s = s.loadInto a (s.reg b) .word := rfl

theorem exec_ldb (a b : RegIdx) (s : State) : exec (.ldb a b) s = s.loadInto a (s.reg b) .byte := rfl

/-- Settles O40: both are `State.loadInto` at the address in `x[B]`, with the two widths. -/
theorem loadsReadMemory : Obligations.LoadsReadMemory :=
  ⟨formRR_ldw.coded rfl, formRR_ldb.coded rfl, fun a b s => exec_loadWord (exec_ldw a b s),
    fun a b s => exec_loadByte (exec_ldb a b s)⟩

/-! ## Stores -/

/-- A write and the advance change the bytes written and `pc`, nothing else (R45, R116). -/
theorem frame_memWrite_advance {s u : State} {a v : Word} {n : Width} (h : s.memWrite a n v = some u) :
    SameMemoryBut a.toNat n.bytes s u.advance ∧ Advanced s u.advance ∧ SameRegs s u.advance ∧ SameControl s u.advance := by
  refine ⟨fun _ hk => State.byteAt_memWrite_of_outside h hk, ?_⟩
  obtain ⟨-, rfl⟩ := State.memWrite_eq_some h
  exact ⟨(writesPc_advance s).pc, fun _ => rfl, ⟨rfl, rfl, rfl, rfl⟩⟩

theorem storesWord_memWrite {s u : State} {a v : Word} (h : s.memWrite a .word v = some u) :
    StoresWord a.toNat v.toNat s u.advance := by
  obtain ⟨hmem, hpc, hregs, hcontrol⟩ := frame_memWrite_advance h
  refine ⟨?_, ?_, hmem, hpc, hregs, hcontrol⟩
  · rw [State.advance_byteAt, State.byteAt_memWrite_word_low h, State.toNat_lowByte]
  · rw [State.advance_byteAt, State.byteAt_memWrite_word_high h, State.toNat_highByte]

theorem storesByte_memWrite {s u : State} {a v : Word} (h : s.memWrite a .byte v = some u) :
    StoresByte a.toNat (v.toNat % 256) s u.advance := by
  obtain ⟨hmem, hpc, hregs, hcontrol⟩ := frame_memWrite_advance h
  refine ⟨?_, hmem, hpc, hregs, hcontrol⟩
  rw [State.advance_byteAt, State.byteAt_memWrite_byte_self h, State.toNat_lowByte]

/-- A store in range is one memory write and the advance (R203, R204, R221). -/
theorem exec_of_storeAt {i : Instr} {s : State} {a v : Word} {n : Width} (he : exec i s = s.storeAt a n v)
    (hr : s.inRange a n = true) : ∃ u, s.memWrite a n v = some u ∧ exec i s = .next u.advance := by
  obtain ⟨u, hwrite, hstore⟩ | ⟨hnone, -⟩ := s.storeAt_cases a n v
  · exact ⟨u, hwrite, he.trans hstore⟩
  · exact absurd hr (by simp [State.memWrite_eq_none.mp hnone])

theorem exec_faulted_of_storeAt {i : Instr} {s : State} {a v : Word} {n : Width} (he : exec i s = s.storeAt a n v)
    (hr : s.inRange a n = false) : exec i s = .next (s.Faulted .storeOutOfRange a) := by
  obtain ⟨u, hwrite, -⟩ | ⟨-, hstore⟩ := s.storeAt_cases a n v
  · exact absurd (State.memWrite_eq_some hwrite).1 (by simp [hr])
  · exact he.trans hstore

theorem exec_storeWord {i : Instr} {s : State} {a v : Word} (he : exec i s = s.storeAt a .word v) :
    (a.toNat + 1 < s.cfg.memSize → ∃ t, exec i s = .next t ∧ StoresWord a.toNat v.toNat s t) ∧
    (s.cfg.memSize ≤ a.toNat + 1 → exec i s = .next (s.Faulted .storeOutOfRange a)) := by
  refine ⟨fun hlt => ?_, fun hle => exec_faulted_of_storeAt he (State.inRange_word_eq_false hle)⟩
  obtain ⟨u, hwrite, hexec⟩ := exec_of_storeAt he ((s.inRange_word a).mpr hlt)
  exact ⟨u.advance, hexec, storesWord_memWrite hwrite⟩

theorem exec_storeByte {i : Instr} {s : State} {a v : Word} (he : exec i s = s.storeAt a .byte v) :
    (a.toNat < s.cfg.memSize → ∃ t, exec i s = .next t ∧ StoresByte a.toNat (v.toNat % 256) s t) ∧
    (s.cfg.memSize ≤ a.toNat → exec i s = .next (s.Faulted .storeOutOfRange a)) := by
  refine ⟨fun hlt => ?_, fun hle => exec_faulted_of_storeAt he (State.inRange_byte_eq_false hle)⟩
  obtain ⟨u, hwrite, hexec⟩ := exec_of_storeAt he ((s.inRange_byte a).mpr hlt)
  exact ⟨u.advance, hexec, storesByte_memWrite hwrite⟩

theorem formRR_stw : FormRR .stw .stw :=
  ⟨rfl, fun _ _ => rfl, fun _ _ => rfl⟩

theorem formRR_stb : FormRR .stb .stb :=
  ⟨rfl, fun _ _ => rfl, fun _ _ => rfl⟩

theorem exec_stw (a b : RegIdx) (s : State) : exec (.stw a b) s = s.storeAt (s.reg b) .word (s.reg a) := rfl

theorem exec_stb (a b : RegIdx) (s : State) : exec (.stb a b) s = s.storeAt (s.reg b) .byte (s.reg a) := rfl

/-- Settles O41: both are `State.storeAt` at the address in `x[B]`, with the two widths. -/
theorem storesWriteMemory : Obligations.StoresWriteMemory :=
  ⟨formRR_stw.coded rfl, formRR_stb.coded rfl, fun a b s => exec_storeWord (exec_stw a b s),
    fun a b s => exec_storeByte (exec_stb a b s)⟩

end Sys2Proof.Machine
end

section
/-! What the statements say of an instruction's number, word and line, for format R, whose one operand is field `A`
(30_encoding.md R73, R74, R101). -/

namespace Sys2Proof.Machine

open Sys2Proof.Laws

/-- Constructor `mk` is the instruction named `k`, of format R, with field `A`. -/
structure FormR (k : Op) (mk : RegIdx → Instr) : Prop where
  format : k.format = .r
  op : ∀ a, (mk a).op = k
  fields : ∀ a, (mk a).fields = { a := a.toNat }

namespace FormR

variable {k : Op} {mk : RegIdx → Instr}

theorem toNat_encode (h : FormR k mk) (o : OpNum) (a : RegIdx) :
    (encode o (mk a)).toNat = (o.num k).toNat + 32 * a.toNat := by
  rw [encode, toNat_encodeFields _ (o.num _).isLt (instr_wellFormed _), h.op, h.fields, h.format]

/-- Bits 15..8 are ignored (R75); they are where format RI has its immediate. -/
theorem decode_append (h : FormR k mk) {o : OpNum} (ho : o.injective = true) (u : BitVec 8) (a : RegIdx) :
    decode o (u ++ a ++ o.num k) = .ok (mk a) := by
  obtain ⟨hop, ha, -⟩ := fields_ri u a (o.num k)
  apply decode_of_wordFields ho
  · rw [hop, h.op]
  · rw [h.op, h.fields, h.format, wordFields, usedFields, ha]

theorem asmText_eq (h : FormR k mk) (a : RegIdx) : asmText (mk a) = mnemonic k ++ ' ' :: regText a.toNat := by
  simp only [asmText, h.op, h.fields, h.format]

theorem coded (h : FormR k mk) {n : Nat} (hn : (OpNum.default.num k).toNat = n) : CodedR k n mk := by
  refine ⟨hn, fun o ho a => ⟨h.toNat_encode o a, fun u => h.decode_append ho u a⟩, fun a => ?_⟩
  rw [← h.asmText_eq]
  exact assembleLine_asmText (mk a)

end FormR

end Sys2Proof.Machine
end

section
/-! The stack-slot instructions: a store and a load at `sp`, which neither moves (46_stack.md R220 to R222). -/

namespace Sys2Proof.Machine

theorem formJ_push : FormJ .push .push :=
  ⟨rfl, fun _ => rfl, fun _ => rfl⟩

theorem formR_pop : FormR .pop .pop :=
  ⟨rfl, fun _ => rfl, fun _ => rfl⟩

theorem exec_push (imm : Imm11) (s : State) : exec (.push imm) s = s.storeAt s.sp .word (zextImm11 imm) := rfl

theorem exec_pop (a : RegIdx) (s : State) : exec (.pop a) s = s.loadInto a s.sp .word := rfl

/-- Settles O42: PUSH is the word store of its zero-extended constant at `sp`. -/
theorem pushWritesTheSlot : Obligations.PushWritesTheSlot := by
  refine ⟨formJ_push.coded rfl, fun imm s => ?_⟩
  rw [← toNat_zextImm11 imm]
  exact exec_storeWord (exec_push imm s)

/-- Settles O43: POP is the word load at `sp`. -/
theorem popReadsTheSlot : Obligations.PopReadsTheSlot :=
  ⟨formR_pop.coded rfl, fun a s => exec_loadWord (exec_pop a s)⟩

/-! ## The one slot (R220) -/

/-- Both bytes of the slot are in memory. -/
def SlotInMemory (s : State) : Prop :=
  s.sp.toNat + 1 < s.cfg.memSize

/-- The slot holds the number `k`, the low byte first. -/
def SlotHolds (k : Nat) (s : State) : Prop :=
  (s.byteAt s.sp.toNat).toNat + 256 * (s.byteAt (s.sp.toNat + 1)).toNat = k

theorem SameControl.slotInMemory {s t : State} (h : SameControl s t) (hs : SlotInMemory s) : SlotInMemory t := by
  rw [SlotInMemory, h.sp, h.cfg]
  exact hs

/-- Reading back what a word store at `sp` left. -/
theorem StoresWord.slotHolds {s t : State} {k : Nat} (h : StoresWord s.sp.toNat k s t) : SlotHolds k t := by
  rw [SlotHolds, h.control.sp, h.low, h.high]
  exact Nat.mod_add_div k 256

/-- A register write leaves the slot's contents. -/
theorem WritesReg.slotHolds {s t : State} {d : RegIdx} {v k : Nat} (h : WritesReg d v s t) (hs : SlotHolds k s) :
    SlotHolds k t := by
  rw [SlotHolds, h.control.sp, h.memory, h.memory]
  exact hs

/-- PUSH completes and fills the slot. -/
theorem exec_push_of_slotInMemory {s : State} (hs : SlotInMemory s) (imm : Imm11) :
    ∃ t, exec (.push imm) s = .next t ∧ StoresWord s.sp.toNat imm.toNat s t :=
  (pushWritesTheSlot.2 imm s).1 hs

/-- POP completes and delivers what the slot holds. -/
theorem exec_pop_of_slotHolds {s : State} {k : Nat} (hs : SlotInMemory s) (hk : SlotHolds k s) (a : RegIdx) :
    ∃ t, exec (.pop a) s = .next t ∧ WritesReg a k s t :=
  hk ▸ (popReadsTheSlot.2 a s).1 hs

/-- Settles O44: the second PUSH leaves its constant in the slot, and the first POP leaves the slot as it is. -/
theorem pushAndPopShareOneSlot : Obligations.PushAndPopShareOneSlot := by
  intro s m n a b hs
  obtain ⟨t, hpushm, hst⟩ := exec_push_of_slotInMemory hs m
  have ht := hst.control.slotInMemory hs
  obtain ⟨u, hpushn, htu⟩ := exec_push_of_slotInMemory ht n
  have hu := htu.control.slotInMemory ht
  obtain ⟨v, hpopa, huv⟩ := exec_pop_of_slotHolds hu htu.slotHolds a
  have hv := huv.control.slotInMemory hu
  obtain ⟨w, hpopb, hvw⟩ := exec_pop_of_slotHolds hv (huv.slotHolds htu.slotHolds) b
  refine ⟨t, u, v, w, hpushm, hpushn, hpopa, hpopb, huv.value, hvw.value, ?_, fun k hk => ?_⟩
  · calc
      w.sp = v.sp := hvw.control.sp
      _ = u.sp := huv.control.sp
      _ = t.sp := htu.control.sp
      _ = s.sp := hst.control.sp
  · calc
      w.byteAt k = v.byteAt k := hvw.memory k
      _ = u.byteAt k := huv.memory k
      _ = t.byteAt k := htu.memory k (hst.control.sp.symm ▸ hk)
      _ = s.byteAt k := hst.memory k hk

end Sys2Proof.Machine
end

section
/-! A run that starts in a stopped state ends in it (00_scope.md R7, 40_cycle_and_dispatch.md R111), and HALT, which stops the core
normally (47_halt.md R230). -/

namespace Sys2Proof.Machine

open Sys2Proof.Laws

theorem eq_of_run_of_not_running {t u : State} {k : Nat} (ht : t.runState ≠ .running)
    (h : Host.Core.run Sys2Proof.core k t = .next u) : u = t := by
  cases (run_of_not_running ht k).symm.trans h
  rfl

/-- HALT is the one instruction of format Z; its word's ignored bits are where format J has its immediate (R74, R75). -/
theorem codedZ_halt : CodedZ .halt 26 .halt := by
  refine ⟨rfl, fun o ho => ⟨toNat_encodeZ _ (o.num .halt).isLt, fun u => ?_⟩, assembleLine_asmText .halt⟩
  obtain ⟨hop, -⟩ := fields_j u (o.num .halt)
  exact decode_of_opcode ho hop

theorem runState_setHalt_advance {s : State} (h : s.fault = none) : s.setHalt.advance.runState = .halted :=
  s.setHalt.advance.runState_halted.mpr ⟨h, rfl⟩

/-- Settles O45: HALT's answer is `exec_halt`, and the halted state it answers is stopped. -/
theorem haltStopsTheCore : Obligations.HaltStopsTheCore := by
  refine ⟨codedZ_halt, fun s => ⟨s.setHalt.advance, exec_halt s, rfl, (writesPc_advance s).pc, fun _ => rfl, fun _ => rfl,
    rfl, rfl, rfl, fun hrun => ?_⟩⟩
  have hhalted := runState_setHalt_advance (s.runState_running.mp hrun).1
  exact ⟨hhalted, fun k u => eq_of_run_of_not_running (by simp [hhalted])⟩

end Sys2Proof.Machine
end

section
/-! Faults: when an instruction's check raises one, when a step does, and what the step then leaves (60_exceptions.md R241, R242). -/

namespace Sys2Proof.Machine

open Sys2Proof.Laws

/-! ## The checks of an instruction -/

theorem State.inRange_word_eq_false_iff (s : State) (a : Word) : s.inRange a .word = false ↔ s.cfg.memSize ≤ a.toNat + 1 := by
  rw [← Bool.not_eq_true, State.inRange_word, Nat.not_lt]

theorem State.inRange_byte_eq_false_iff (s : State) (a : Word) : s.inRange a .byte = false ↔ s.cfg.memSize ≤ a.toNat := by
  rw [← Bool.not_eq_true, State.inRange_byte, Nat.not_lt]

theorem checkFault_of_divisor {s : State} {i : Instr} {d : Word} (hd : divisor s i = some d) (hm : dataAccess s i = none)
    (r : FaultRecord) :
    checkFault s i = some r ↔ d = 0#16 ∧ r = { cause := .divideByZero, info := s.instrWord } := by
  by_cases h : d = 0#16 <;> simp [checkFault, hd, hm, h, eq_comm]

theorem checkFault_of_read {s : State} {i : Instr} {a : Word} {n : Width} (hd : divisor s i = none)
    (hm : dataAccess s i = some (.read a n)) (r : FaultRecord) :
    checkFault s i = some r ↔ s.inRange a n = false ∧ r = { cause := .loadOutOfRange, info := a } := by
  cases h : s.inRange a n <;> simp [checkFault, hd, hm, h, eq_comm]

theorem checkFault_of_write {s : State} {i : Instr} {a v : Word} {n : Width} (hd : divisor s i = none)
    (hm : dataAccess s i = some (.write a n v)) (r : FaultRecord) :
    checkFault s i = some r ↔ s.inRange a n = false ∧ r = { cause := .storeOutOfRange, info := a } := by
  cases h : s.inRange a n <;> simp [checkFault, hd, hm, h, eq_comm]

/-- An instruction that neither divides nor accesses data raises nothing itself (R241). -/
theorem checkFault_of_neither {s : State} {i : Instr} (hd : divisor s i = none) (hm : dataAccess s i = none) :
    checkFault s i = none := by
  simp [checkFault, hd, hm]

/-! ## The rows of the fault table, by the stage that ends the step -/

theorem faultRow_iff_of_fetch_none {s : State} (hfetch : s.fetch = none) (r : FaultRecord) :
    FaultRow s r ↔ r = { cause := .fetchOutOfRange, info := s.pc } := by
  have hle : s.cfg.memSize ≤ s.pc.toNat + 1 := by
    by_contra hlt
    cases hfetch.symm.trans (State.fetch_of_lt (not_le.mp hlt))
  simp [FaultRow, hle, hfetch]

theorem not_memSize_le_of_fetch {s : State} {w : Word} (hfetch : s.fetch = some w) : ¬ s.cfg.memSize ≤ s.pc.toNat + 1 := by
  intro hle
  cases hfetch.symm.trans (State.fetch_of_le hle)

theorem faultRow_iff_of_decode_error {s : State} {w : Word} {e : DecodeError} (hfetch : s.fetch = some w)
    (hdec : decode s.cfg.opnum w = .error e) (r : FaultRecord) :
    FaultRow s r ↔ r = { cause := .illegalInstruction, info := w } := by
  obtain ⟨k, -, hok⟩ | ⟨hnone, -⟩ := decode_cases s.cfg.opnum w
  · cases hok.symm.trans hdec
  · simp [FaultRow, not_memSize_le_of_fetch hfetch, hfetch, hdec, hnone]

/-- Once an instruction is decoded, the row it can meet is the one its check looks for. -/
theorem faultRow_iff_checkFault {s : State} {w : Word} {i : Instr} (hfetch : s.fetch = some w)
    (hdec : decode s.cfg.opnum w = .ok i) (r : FaultRecord) : FaultRow s r ↔ checkFault s i = some r := by
  have hassigned : ¬ ∀ k, s.cfg.opnum.num k ≠ fieldOpcode w := by
    rw [← decode_eq_error_iff, hdec]
    exact nofun
  simp only [FaultRow, not_memSize_le_of_fetch hfetch, hfetch, hdec, hassigned, false_and, false_or, Option.some.injEq,
    Except.ok.injEq, exists_eq_left']
  cases i with
  | mod a b => simp [checkFault_of_divisor (s := s) (i := .mod a b) rfl rfl, instrWord_of_fetch hfetch]
  | modi a imm =>
    simp [checkFault_of_divisor (s := s) (i := .modi a imm) rfl rfl, instrWord_of_fetch hfetch, zextImm8_eq_zero_iff]
  | ldw a b => simp [checkFault_of_read (s := s) (i := .ldw a b) rfl rfl, State.inRange_word_eq_false_iff]
  | ldb a b => simp [checkFault_of_read (s := s) (i := .ldb a b) rfl rfl, State.inRange_byte_eq_false_iff]
  | stw a b => simp [checkFault_of_write (s := s) (i := .stw a b) rfl rfl, State.inRange_word_eq_false_iff]
  | stb a b => simp [checkFault_of_write (s := s) (i := .stb a b) rfl rfl, State.inRange_byte_eq_false_iff]
  | push imm => simp [checkFault_of_write (s := s) (i := .push imm) rfl rfl, State.inRange_word_eq_false_iff]
  | pop a => simp [checkFault_of_read (s := s) (i := .pop a) rfl rfl, State.inRange_word_eq_false_iff]
  | _ =>
    rw [checkFault_of_neither rfl rfl]
    simp

/-! ## The fault record after a step -/

theorem fault_raise_eq_some_iff (s : State) (f : Fault) (info : Word) (r : FaultRecord) :
    (s.raise f info).fault = some r ↔ r = { cause := f, info := info } := by
  rw [State.raise_fault, Option.some.injEq, eq_comm]

theorem exec_fault_iff {i : Instr} {s t : State} (hs : s.fault = none) (h : exec i s = .next t) (r : FaultRecord) :
    t.fault = some r ↔ checkFault s i = some r := by
  obtain ⟨q, hq, rfl⟩ | ⟨hnone, rfl⟩ := exec_cases h
  · rw [hq, State.raise_fault]
  · rw [State.advance_fault, fault_replay_workEvents, hs, hnone]

theorem step_fault_iff {s t : State} (hrun : s.runState = .running) (h : step s = .next t) (r : FaultRecord) :
    t.fault = some r ↔ FaultRow s r := by
  obtain ⟨hne, -⟩ | ⟨-, hfetch, hstep⟩ | ⟨w, e, -, hfetch, hdec, hstep⟩ | ⟨w, i, -, hfetch, hdec, hstep⟩ := step_cases s
  · exact absurd hrun hne
  · cases hstep.symm.trans h
    rw [fault_raise_eq_some_iff, faultRow_iff_of_fetch_none hfetch]
  · cases hstep.symm.trans h
    rw [fault_raise_eq_some_iff, faultRow_iff_of_decode_error hfetch hdec]
  · rw [exec_fault_iff (s.runState_running.mp hrun).1 (hstep.symm.trans h), faultRow_iff_checkFault hfetch hdec]

/-! ## The host's view of a fault -/

theorem faultCode_ne_zero (f : Fault) : faultCode f ≠ 0#3 := by
  cases f <;> decide

theorem hostView_faultCause_eq_zero_iff (s : State) : s.hostView.faultCause = 0#3 ↔ s.fault = none := by
  unfold State.hostView
  cases s.fault with
  | none => exact iff_of_true rfl rfl
  | some r => exact iff_of_false (faultCode_ne_zero r.cause) nofun

/-- Settles O25: each stage raises the fault of its own rows; that `pc` stays is the first part of O22. -/
theorem faultsAreExactlyThoseOfTheTable : Obligations.FaultsAreExactlyThoseOfTheTable := by
  refine ⟨fun s t hrun h => ⟨step_fault_iff hrun h, fun hne => ?_⟩, hostView_faultCause_eq_zero_iff, rfl⟩
  obtain ⟨r, hr⟩ := Option.ne_none_iff_exists'.mp hne
  exact (pcAfterAStepFollowsTheTable s t hrun h).1 r hr

/-! ## The state a fault leaves -/

theorem exec_eq_raise_of_fault {i : Instr} {s t : State} {r : FaultRecord} (hs : s.fault = none) (h : exec i s = .next t)
    (hr : t.fault = some r) : t = s.raise r.cause r.info := by
  have hcheck := (exec_fault_iff hs h r).mp hr
  obtain ⟨q, hq, ht⟩ | ⟨hnone, -⟩ := exec_cases h
  · cases hq.symm.trans hcheck
    exact ht
  · cases hnone.symm.trans hcheck

theorem step_eq_raise_of_fault {s t : State} {r : FaultRecord} (hrun : s.runState = .running) (h : step s = .next t)
    (hr : t.fault = some r) : t = s.raise r.cause r.info := by
  obtain ⟨hne, -⟩ | ⟨-, f, info, rfl⟩ | ⟨-, w, i, -, -, hexec⟩ := step_next_cases h
  · exact absurd hrun hne
  · cases (fault_raise_eq_some_iff s f info r).mp hr
    rfl
  · exact exec_eq_raise_of_fault (s.runState_running.mp hrun).1 hexec hr

/-- Settles O26: a fault is raised on the state before the step, where `halt` is false, and a faulted state is stopped. -/
theorem faultsArePrecise : Obligations.FaultsArePrecise := by
  intro s t r hrun h hr
  have hfaulted : t.runState = .faulted r := (t.runState_faulted r).mpr hr
  have ht := step_eq_raise_of_fault hrun h hr
  have hhalt : t.halt = false := by rw [ht, State.raise_halt, (s.runState_running.mp hrun).2]
  exact ⟨ht, hfaulted, hhalt, fun k u => eq_of_run_of_not_running (by simp [hfaulted])⟩

end Sys2Proof.Machine
end

section
/-! What the conditions of the jumps make of a comparison code (42_compare_branch.md R147, 70_reset_and_hazards.md R295). -/

namespace Sys2Proof.Machine

theorem condE_compareCode_iff (x y : Word) : condE (compareCode x y) = true ↔ x.toNat = y.toNat := by
  have := x.isLt
  rw [condE_iff, toNat_compareCode]
  split <;> omega

theorem condN_compareCode_iff (x y : Word) : condN (compareCode x y) = true ↔ x.toNat ≠ y.toNat := by
  rw [condN_iff, ← condE_iff, condE_compareCode_iff]

/-- The code of the pair (65535, 0) wraps to 0 (R141). -/
theorem condG_compareCode_iff (x y : Word) :
    condG (compareCode x y) = true ↔ y.toNat < x.toNat ∧ ¬ (x.toNat = 65535 ∧ y.toNat = 0) := by
  have := x.isLt
  rw [condG_iff, toNat_compareCode]
  split <;> omega

/-- A difference of 32767 or more gives a code that reads as negative, or as 0 after the wrap. -/
theorem condL_compareCode_iff (x y : Word) :
    condL (compareCode x y) = true ↔ x.toNat < y.toNat ∨ y.toNat + 32767 ≤ x.toNat := by
  have := x.isLt
  rw [condL_iff, toNat_compareCode]
  split <;> omega

/-- Settles O33: CMP leaves the comparison code in `x[0]`, and each condition on it is a condition on the operands. -/
theorem compareCodeMisreportsInTwoRanges : Obligations.CompareCodeMisreportsInTwoRanges := by
  intro a b s t h
  cases (exec_cmp a b s).symm.trans h
  rw [State.advance_reg, State.reg_setReg_self]
  exact ⟨condE_compareCode_iff _ _, condN_compareCode_iff _ _, condG_compareCode_iff _ _, condL_compareCode_iff _ _⟩

end Sys2Proof.Machine
end

section
/-! Starting a core (70_reset_and_hazards.md R282). -/

namespace Sys2Proof.Machine

theorem imageFits_iff (c : Config) (rom : List Byte) : c.imageFits rom = true ↔ c.romBase + rom.length ≤ c.memSize :=
  decide_eq_true_iff

theorem launch_of_fits {c : Config} {rom : List Byte} (hwf : c.wf = true) (hfits : c.imageFits rom = true) :
    State.launch c rom = .next (State.resetWith c rom) := by
  simp [State.launch, hwf, hfits]

theorem launch_of_not_fits {c : Config} {rom : List Byte} (hwf : c.wf = true) (hfits : ¬ c.imageFits rom = true) :
    State.launch c rom = .refused .imageDoesNotFit := by
  simp [State.launch, hwf, hfits]

/-- Settles O12: with legal parameters only the check of the image decides. -/
theorem launchTakesOnlyFittingImages : Obligations.LaunchTakesOnlyFittingImages := by
  intro c rom hwf
  refine ⟨fun hle => launch_of_fits hwf ((imageFits_iff c rom).mpr hle), fun hlt => launch_of_not_fits hwf ?_⟩
  rw [imageFits_iff]
  exact not_le.mpr hlt

end Sys2Proof.Machine
end
